-- ==== Sys2Proof/Word.lean ====
section
/-! DEFINITION. The words of the machine: the widths the spec gives (00_scope.md R9, R12; 10_state.md R20). -/

namespace Sys2Proof

/-- One of the four 4-bit fields d1 d2 d3 d4 of an instruction word (R11, R71). -/
abbrev Nibble := BitVec 4

/-- A general register, a timer, a memory cell, an immediate nn (R9). -/
abbrev Byte := BitVec 8

/-- The 12-bit immediate nnn (R12). -/
abbrev Imm12 := BitVec 12

/-- PC, I, a stack slot, an instruction word (R9, R70). -/
abbrev Word := BitVec 16

/-- A register number, 0x0 to 0xF: every number an instruction can hold is valid (R21). -/
abbrev Reg := Fin 16

/-- A key number, 0x0 to 0xF (R36). -/
abbrev Key := Fin 16

/-- VF, the flag register: V[15] (R22). -/
abbrev VF : Reg := 15

end Sys2Proof
end

