-- ==== Sys2Proof/Syntax.lean ====
section
/-! DEFINITION. The instructions: one constructor per row of 30_encoding.md R80, in the table's order. The operands
are the fields of R71 and R72: x and y are register numbers, nn a byte, nnn a 12-bit immediate, n a row count 0..15. -/

namespace Sys2Proof

/-- The 35 instructions of R80. -/
inductive Instr where
  /-- 0000: no-op (R101). -/
  | nop
  /-- 00E0: clear framebuffer (R201). -/
  | cls
  /-- 00EE: return (R104). -/
  | ret
  /-- 1nnn: jump (R105). -/
  | jpNnn (nnn : Imm12)
  /-- 2nnn: call (R107). -/
  | callNnn (nnn : Imm12)
  /-- 3xnn: skip if Vx = nn (R108). -/
  | seVxNn (x : Reg) (nn : Byte)
  /-- 4xnn: skip if Vx ≠ nn (R109). -/
  | sneVxNn (x : Reg) (nn : Byte)
  /-- 5xy0: skip if Vx = Vy (R110). -/
  | seVxVy (x y : Reg)
  /-- 6xnn: Vx = nn (R142). -/
  | ldVxNn (x : Reg) (nn : Byte)
  /-- 7xnn: Vx = Vx + nn (R143). -/
  | addVxNn (x : Reg) (nn : Byte)
  /-- 8xy0: Vx = Vy (R144). -/
  | ldVxVy (x y : Reg)
  /-- 8xy1: Vx = Vx OR Vy (R145). -/
  | orVxVy (x y : Reg)
  /-- 8xy2: Vx = Vx AND Vy (R146). -/
  | andVxVy (x y : Reg)
  /-- 8xy3: Vx = Vx XOR Vy (R147). -/
  | xorVxVy (x y : Reg)
  /-- 8xy4: Vx = Vx + Vy, VF = carry (R148). -/
  | addVxVy (x y : Reg)
  /-- 8xy5: Vx = Vx - Vy, VF = not borrow (R149). -/
  | subVxVy (x y : Reg)
  /-- 8xy6: Vx = Vx >> 1, VF = the bit shifted out (R150). The field y selects no operand (R84). -/
  | shrVxVy (x y : Reg)
  /-- 8xy7: Vx = Vy - Vx, VF = not borrow (R151). -/
  | subnVxVy (x y : Reg)
  /-- 8xyE: Vx = Vx << 1, VF = the bit shifted out (R152). The field y selects no operand (R84). -/
  | shlVxVy (x y : Reg)
  /-- 9xy0: skip if Vx ≠ Vy (R111). -/
  | sneVxVy (x y : Reg)
  /-- Annn: I = nnn (R181). -/
  | ldINnn (nnn : Imm12)
  /-- Bnnn: PC = V0 + nnn (R112). -/
  | jpV0Nnn (nnn : Imm12)
  /-- Cxnn: Vx = random byte AND nn (R153). -/
  | rndVxNn (x : Reg) (nn : Byte)
  /-- Dxyn: draw n sprite rows from M[I] at (Vx, Vy), VF = collision (R202). -/
  | drwVxVyN (x y : Reg) (n : Fin 16)
  /-- Ex9E: skip if the key Vx is pressed (R221). -/
  | skpVx (x : Reg)
  /-- ExA1: skip if the key Vx is not pressed (R222). -/
  | sknpVx (x : Reg)
  /-- Fx07: Vx = DT (R223). -/
  | ldVxDT (x : Reg)
  /-- Fx0A: wait for a key (R224). -/
  | ldVxK (x : Reg)
  /-- Fx15: DT = Vx (R225). -/
  | ldDTVx (x : Reg)
  /-- Fx18: ST = Vx (R226). -/
  | ldSTVx (x : Reg)
  /-- Fx1E: I = I + Vx (R182). -/
  | addIVx (x : Reg)
  /-- Fx29: I = 5 * Vx (R183). -/
  | ldFVx (x : Reg)
  /-- Fx33: BCD of Vx at M[I..I+3] (R184). -/
  | ldBVx (x : Reg)
  /-- Fx55: store V0..Vx at M[I] (R185). -/
  | ldMemVx (x : Reg)
  /-- Fx65: load V0..Vx from M[I] (R187). -/
  | ldVxMem (x : Reg)
  deriving DecidableEq, Repr

end Sys2Proof
end

