-- ==== Sys2Proof/WellFormed.lean ====
section
/-! DEFINITION. The opcode table and the well-formedness check. Every operand an `Instr` can hold is one its field
can hold (R21, R71, R72: the types say so), so a term of `Instr` is never ill-formed; what can be ill-formed is an
instruction WORD: one that matches no row of 30_encoding.md R80 (R81). -/

namespace Sys2Proof

/-- A row of the opcode map: a word w selects it when `w & mask = match` (R80). -/
structure OpcodeRow where
  /-- Column `match`. -/
  bits : Word
  /-- Column `mask`. -/
  mask : Word
  deriving DecidableEq, Repr

/-- The row of each instruction, in the order of R80. -/
def rowOf : Instr → OpcodeRow
  | .nop => ⟨0x0000, 0xFFFF⟩
  | .cls => ⟨0x00E0, 0xFFFF⟩
  | .ret => ⟨0x00EE, 0xFFFF⟩
  | .jpNnn _ => ⟨0x1000, 0xF000⟩
  | .callNnn _ => ⟨0x2000, 0xF000⟩
  | .seVxNn _ _ => ⟨0x3000, 0xF000⟩
  | .sneVxNn _ _ => ⟨0x4000, 0xF000⟩
  | .seVxVy _ _ => ⟨0x5000, 0xF00F⟩
  | .ldVxNn _ _ => ⟨0x6000, 0xF000⟩
  | .addVxNn _ _ => ⟨0x7000, 0xF000⟩
  | .ldVxVy _ _ => ⟨0x8000, 0xF00F⟩
  | .orVxVy _ _ => ⟨0x8001, 0xF00F⟩
  | .andVxVy _ _ => ⟨0x8002, 0xF00F⟩
  | .xorVxVy _ _ => ⟨0x8003, 0xF00F⟩
  | .addVxVy _ _ => ⟨0x8004, 0xF00F⟩
  | .subVxVy _ _ => ⟨0x8005, 0xF00F⟩
  | .shrVxVy _ _ => ⟨0x8006, 0xF00F⟩
  | .subnVxVy _ _ => ⟨0x8007, 0xF00F⟩
  | .shlVxVy _ _ => ⟨0x800E, 0xF00F⟩
  | .sneVxVy _ _ => ⟨0x9000, 0xF00F⟩
  | .ldINnn _ => ⟨0xA000, 0xF000⟩
  | .jpV0Nnn _ => ⟨0xB000, 0xF000⟩
  | .rndVxNn _ _ => ⟨0xC000, 0xF000⟩
  | .drwVxVyN _ _ _ => ⟨0xD000, 0xF000⟩
  | .skpVx _ => ⟨0xE09E, 0xF0FF⟩
  | .sknpVx _ => ⟨0xE0A1, 0xF0FF⟩
  | .ldVxDT _ => ⟨0xF007, 0xF0FF⟩
  | .ldVxK _ => ⟨0xF00A, 0xF0FF⟩
  | .ldDTVx _ => ⟨0xF015, 0xF0FF⟩
  | .ldSTVx _ => ⟨0xF018, 0xF0FF⟩
  | .addIVx _ => ⟨0xF01E, 0xF0FF⟩
  | .ldFVx _ => ⟨0xF029, 0xF0FF⟩
  | .ldBVx _ => ⟨0xF033, 0xF0FF⟩
  | .ldMemVx _ => ⟨0xF055, 0xF0FF⟩
  | .ldVxMem _ => ⟨0xF065, 0xF0FF⟩

/-- One instruction for each row, with operands zero. -/
def rowHeads : List Instr :=
  [.nop, .cls, .ret, .jpNnn 0, .callNnn 0, .seVxNn 0 0, .sneVxNn 0 0, .seVxVy 0 0, .ldVxNn 0 0, .addVxNn 0 0] ++
  [.ldVxVy 0 0, .orVxVy 0 0, .andVxVy 0 0, .xorVxVy 0 0, .addVxVy 0 0, .subVxVy 0 0, .shrVxVy 0 0, .subnVxVy 0 0,
    .shlVxVy 0 0, .sneVxVy 0 0] ++
  [.ldINnn 0, .jpV0Nnn 0, .rndVxNn 0 0, .drwVxVyN 0 0 0, .skpVx 0, .sknpVx 0, .ldVxDT 0, .ldVxK 0, .ldDTVx 0,
    .ldSTVx 0, .addIVx 0, .ldFVx 0, .ldBVx 0, .ldMemVx 0, .ldVxMem 0]

/-- The opcode map of R80: 35 rows. -/
def opcodeRows : List OpcodeRow := rowHeads.map rowOf

/-- `w & mask = match` (R77, R80). -/
def OpcodeRow.selects (r : OpcodeRow) (w : Word) : Bool := w &&& r.mask == r.bits

/-- A word that is an instruction: some row of R80 selects it. The others are the unknown opcodes (R81). -/
def wordWellFormed (w : Word) : Bool := opcodeRows.any (·.selects w)

end Sys2Proof
end

