-- ==== Sys2Proof/Decode.lean ====
section
/-! DEFINITION. From bytes to an instruction or none (none is UnknownOpcode, 30_encoding.md R87), and the encoder. -/

namespace Sys2Proof

/-- The word {d1, d2, d3, d4} (R71). -/
def wordOf (d1 d2 d3 d4 : Nibble) : Word := d1 ++ d2 ++ d3 ++ d4

/-- d1 = w[15:12] (R11). -/
def nibble1 (w : Word) : Nibble := w.extractLsb' 12 4

/-- d2 = w[11:8] (R11). -/
def nibble2 (w : Word) : Nibble := w.extractLsb' 8 4

/-- d3 = w[7:4] (R11). -/
def nibble3 (w : Word) : Nibble := w.extractLsb' 4 4

/-- d4 = w[3:0] (R11). -/
def nibble4 (w : Word) : Nibble := w.extractLsb' 0 4

/-- A register number, or the row count n, from its field (R71). -/
def nibbleNumber (d : Nibble) : Fin 16 := d.toFin

/-- nn = {d3, d4} (R71). -/
def immNn (d3 d4 : Nibble) : Byte := d3 ++ d4

/-- nnn = {d2, d3, d4} (R71). -/
def immNnn (d2 d3 d4 : Nibble) : Imm12 := d2 ++ d3 ++ d4

/-- Leading nibble 0: only 0000, 00E0 and 00EE are instructions (R80, R81). -/
def decode0 (d2 d3 d4 : Nibble) : Option Instr :=
  match d2.toNat, d3.toNat, d4.toNat with
  | 0x0, 0x0, 0x0 => some .nop
  | 0x0, 0xE, 0x0 => some .cls
  | 0x0, 0xE, 0xE => some .ret
  | _, _, _ => none

/-- Leading nibble 8: the last nibble selects the operation (R80, R81). -/
def decode8 (x y : Reg) (d4 : Nibble) : Option Instr :=
  match d4.toNat with
  | 0x0 => some (.ldVxVy x y)
  | 0x1 => some (.orVxVy x y)
  | 0x2 => some (.andVxVy x y)
  | 0x3 => some (.xorVxVy x y)
  | 0x4 => some (.addVxVy x y)
  | 0x5 => some (.subVxVy x y)
  | 0x6 => some (.shrVxVy x y)
  | 0x7 => some (.subnVxVy x y)
  | 0xE => some (.shlVxVy x y)
  | _ => none

/-- Leading nibble E: Ex9E and ExA1 (R80, R81). -/
def decodeE (x : Reg) (d3 d4 : Nibble) : Option Instr :=
  match d3.toNat, d4.toNat with
  | 0x9, 0xE => some (.skpVx x)
  | 0xA, 0x1 => some (.sknpVx x)
  | _, _ => none

/-- Leading nibble F (R80, R81). -/
def decodeF (x : Reg) (d3 d4 : Nibble) : Option Instr :=
  match d3.toNat, d4.toNat with
  | 0x0, 0x7 => some (.ldVxDT x)
  | 0x0, 0xA => some (.ldVxK x)
  | 0x1, 0x5 => some (.ldDTVx x)
  | 0x1, 0x8 => some (.ldSTVx x)
  | 0x1, 0xE => some (.addIVx x)
  | 0x2, 0x9 => some (.ldFVx x)
  | 0x3, 0x3 => some (.ldBVx x)
  | 0x5, 0x5 => some (.ldMemVx x)
  | 0x6, 0x5 => some (.ldVxMem x)
  | _, _ => none

/-- Dispatch "keyed on the 4-tuple of nibbles" (R77); `none` is an unknown opcode (R81). -/
def decodeNibbles (d1 d2 d3 d4 : Nibble) : Option Instr :=
  match d1.toNat with
  | 0x0 => decode0 d2 d3 d4
  | 0x1 => some (.jpNnn (immNnn d2 d3 d4))
  | 0x2 => some (.callNnn (immNnn d2 d3 d4))
  | 0x3 => some (.seVxNn (nibbleNumber d2) (immNn d3 d4))
  | 0x4 => some (.sneVxNn (nibbleNumber d2) (immNn d3 d4))
  | 0x5 => if d4.toNat = 0 then some (.seVxVy (nibbleNumber d2) (nibbleNumber d3)) else none
  | 0x6 => some (.ldVxNn (nibbleNumber d2) (immNn d3 d4))
  | 0x7 => some (.addVxNn (nibbleNumber d2) (immNn d3 d4))
  | 0x8 => decode8 (nibbleNumber d2) (nibbleNumber d3) d4
  | 0x9 => if d4.toNat = 0 then some (.sneVxVy (nibbleNumber d2) (nibbleNumber d3)) else none
  | 0xA => some (.ldINnn (immNnn d2 d3 d4))
  | 0xB => some (.jpV0Nnn (immNnn d2 d3 d4))
  | 0xC => some (.rndVxNn (nibbleNumber d2) (immNn d3 d4))
  | 0xD => some (.drwVxVyN (nibbleNumber d2) (nibbleNumber d3) (nibbleNumber d4))
  | 0xE => decodeE (nibbleNumber d2) d3 d4
  | 0xF => decodeF (nibbleNumber d2) d3 d4
  | _ => none

/-- Decode(w) (R77, R87). -/
def decode (w : Word) : Option Instr := decodeNibbles (nibble1 w) (nibble2 w) (nibble3 w) (nibble4 w)

/-- The byte at the lower address is bits 15:8 of the word (R57). -/
def bigEndian (hi lo : Byte) : Word := hi ++ lo

/-- The byte an instruction word stores at its own address (R57). -/
def highByte (w : Word) : Byte := w.extractLsb' 8 8

/-- The byte an instruction word stores at the address after its own (R57). -/
def lowByte (w : Word) : Byte := w.extractLsb' 0 8

/-- The instruction at the head of some bytes, with the bytes after it: every instruction is two bytes (R70). -/
def decodeBytes : List Byte → Option (Instr × List Byte)
  | hi :: lo :: rest => (decode (bigEndian hi lo)).map (·, rest)
  | _ => none

/-- The instruction whose `nbits` bits are w, bit 0 the least significant of the first (and only) word. -/
def decodeTableWord (nbits w : Nat) : Option Instr :=
  let word : Word := BitVec.ofNat 16 (w % 2 ^ nbits)
  (decodeBytes [highByte word, lowByte word]).map (·.1)

/-- The word with the leading nibble d1, a register field and a byte: format XB (R73). -/
def encodeXB (d1 : Nibble) (x : Reg) (nn : Byte) : Word :=
  wordOf d1 (BitVec.ofFin x) (nn.extractLsb' 4 4) (nn.extractLsb' 0 4)

/-- The word with the leading nibble d1 and a 12-bit immediate: format A (R73). -/
def encodeA (d1 : Nibble) (nnn : Imm12) : Word :=
  wordOf d1 (nnn.extractLsb' 8 4) (nnn.extractLsb' 4 4) (nnn.extractLsb' 0 4)

/-- The word with two register fields between two nibbles: formats XYF and XYN (R73). -/
def encodeXY (d1 : Nibble) (x y : Reg) (d4 : Nibble) : Word :=
  wordOf d1 (BitVec.ofFin x) (BitVec.ofFin y) d4

/-- The word with one register field: format XF (R73). -/
def encodeX (d1 : Nibble) (x : Reg) (d3 d4 : Nibble) : Word := wordOf d1 (BitVec.ofFin x) d3 d4

/-- The word of an instruction (R80, R86: each form assembles to exactly one word). -/
def encode : Instr → Word
  | .nop => wordOf 0x0 0x0 0x0 0x0
  | .cls => wordOf 0x0 0x0 0xE 0x0
  | .ret => wordOf 0x0 0x0 0xE 0xE
  | .jpNnn nnn => encodeA 0x1 nnn
  | .callNnn nnn => encodeA 0x2 nnn
  | .seVxNn x nn => encodeXB 0x3 x nn
  | .sneVxNn x nn => encodeXB 0x4 x nn
  | .seVxVy x y => encodeXY 0x5 x y 0x0
  | .ldVxNn x nn => encodeXB 0x6 x nn
  | .addVxNn x nn => encodeXB 0x7 x nn
  | .ldVxVy x y => encodeXY 0x8 x y 0x0
  | .orVxVy x y => encodeXY 0x8 x y 0x1
  | .andVxVy x y => encodeXY 0x8 x y 0x2
  | .xorVxVy x y => encodeXY 0x8 x y 0x3
  | .addVxVy x y => encodeXY 0x8 x y 0x4
  | .subVxVy x y => encodeXY 0x8 x y 0x5
  | .shrVxVy x y => encodeXY 0x8 x y 0x6
  | .subnVxVy x y => encodeXY 0x8 x y 0x7
  | .shlVxVy x y => encodeXY 0x8 x y 0xE
  | .sneVxVy x y => encodeXY 0x9 x y 0x0
  | .ldINnn nnn => encodeA 0xA nnn
  | .jpV0Nnn nnn => encodeA 0xB nnn
  | .rndVxNn x nn => encodeXB 0xC x nn
  | .drwVxVyN x y n => encodeXY 0xD x y (BitVec.ofFin n)
  | .skpVx x => encodeX 0xE x 0x9 0xE
  | .sknpVx x => encodeX 0xE x 0xA 0x1
  | .ldVxDT x => encodeX 0xF x 0x0 0x7
  | .ldVxK x => encodeX 0xF x 0x0 0xA
  | .ldDTVx x => encodeX 0xF x 0x1 0x5
  | .ldSTVx x => encodeX 0xF x 0x1 0x8
  | .addIVx x => encodeX 0xF x 0x1 0xE
  | .ldFVx x => encodeX 0xF x 0x2 0x9
  | .ldBVx x => encodeX 0xF x 0x3 0x3
  | .ldMemVx x => encodeX 0xF x 0x5 0x5
  | .ldVxMem x => encodeX 0xF x 0x6 0x5

/-- The bytes of an instruction as memory holds them, the byte at the lower address first (R57, R70). -/
def encodeBytes (i : Instr) : List Byte := [highByte (encode i), lowByte (encode i)]

end Sys2Proof
end

