-- ==== Sys2Proof/Config.lean ====
section
/-! DEFINITION. What a machine is built with: the constants of 00_scope.md R9, the parameters the source leaves
open (R10) as one record, and the free values, draws "under no law" (R10, R265, R141). The parameters' default
values stand in Machine/Defaults.lean. -/

namespace Sys2Proof

/-- How Dxyn updates a pixel under a set sprite bit (43_display.md R204). -/
inductive DrawMode where
  /-- The pixel becomes on. -/
  | forceOn
  /-- The pixel is toggled. -/
  | xor
  deriving DecidableEq, Repr

/-- What VF keeps when x = 0xF in 8xy4, 8xy5, 8xy6, 8xy7, 8xyE (41_alu.md R141). -/
inductive VfAlias where
  /-- The writes are made in the source's clause order. -/
  | textOrder
  /-- The flag is written last. -/
  | flagLast
  /-- The final VF is a draw under no law. -/
  | unconstrained
  deriving DecidableEq, Repr

/-- The named arguments of the machine (00_scope.md R10), fixed for one machine. -/
structure Params where
  /-- FONT: the 80 bytes initialize writes at 0x000 (20_memory.md R52). -/
  font : Vector Byte 80
  /-- DRAW_MODE (43_display.md R204). -/
  drawMode : DrawMode
  /-- LOW_WRITE_FAULT: an instruction write below 0x200 faults (20_memory.md R56). -/
  lowWriteFault : Bool
  /-- VF_ALIAS (41_alu.md R141). -/
  vfAlias : VfAlias
  deriving DecidableEq, Repr

namespace Config

/-- MEM_SIZE (R9). -/
abbrev memSize : Nat := 4096

/-- FONT_SIZE: 16 glyphs of 5 bytes (R9). -/
abbrev fontSize : Nat := 80

/-- PROGRAM_BASE: the reset PC, the load address and the low-write boundary (R9, R51). -/
abbrev programBase : Nat := 0x200

/-- FREE VALUE: the n-th draw of the random byte (R265: "The model places no law on r"). -/
opaque rand8 : Nat → Byte

/-- FREE VALUE: the n-th draw of the final VF under VF_ALIAS = Unconstrained (R141: "a draw under no law"). -/
opaque vfDraw : Nat → Byte

end Config

end Sys2Proof
end

