-- ==== Sys2Proof/Machine/Defaults.lean ====
section
/-! DEFINITION. The default value of each parameter of 00_scope.md R10 (92_eei_decisions.md D3-D6): what
State.reset is built with. Log entry 1. -/

namespace Sys2Proof.Machine

/-- Glyphs 0 to 7 of the default FONT (20_memory.md R52, marked there as general knowledge; D3). -/
def defaultGlyphs0to7 : List Byte :=
  [0xF0, 0x90, 0x90, 0x90, 0xF0] ++ [0x20, 0x60, 0x20, 0x20, 0x70] ++
  [0xF0, 0x10, 0xF0, 0x80, 0xF0] ++ [0xF0, 0x10, 0xF0, 0x10, 0xF0] ++
  [0x90, 0x90, 0xF0, 0x10, 0x10] ++ [0xF0, 0x80, 0xF0, 0x10, 0xF0] ++
  [0xF0, 0x80, 0xF0, 0x90, 0xF0] ++ [0xF0, 0x10, 0x20, 0x40, 0x40]

/-- Glyphs 8 to F of the default FONT (R52). -/
def defaultGlyphs8toF : List Byte :=
  [0xF0, 0x90, 0xF0, 0x90, 0xF0] ++ [0xF0, 0x90, 0xF0, 0x10, 0xF0] ++
  [0xF0, 0x90, 0xF0, 0x90, 0x90] ++ [0xE0, 0x90, 0xE0, 0x90, 0xE0] ++
  [0xF0, 0x80, 0x80, 0x80, 0xF0] ++ [0xE0, 0x90, 0x90, 0x90, 0xE0] ++
  [0xF0, 0x80, 0xF0, 0x80, 0xF0] ++ [0xF0, 0x80, 0xF0, 0x80, 0x80]

/-- The default FONT (R52, D3). -/
def defaultFont : Vector Byte 80 := ⟨(defaultGlyphs0to7 ++ defaultGlyphs8toF).toArray, by decide⟩

/-- The default DRAW_MODE: "ForceOn" (R204, D4). -/
def defaultDrawMode : DrawMode := .forceOn

/-- The default LOW_WRITE_FAULT: "true" (R56, D5). -/
def defaultLowWriteFault : Bool := true

/-- The default VF_ALIAS: "TextOrder" (R141, D6). -/
def defaultVfAlias : VfAlias := .textOrder

/-- The defaults of R10 together. -/
def defaultParams : Params :=
  { font := defaultFont, drawMode := defaultDrawMode, lowWriteFault := defaultLowWriteFault
    vfAlias := defaultVfAlias }

end Sys2Proof.Machine
end

