-- ==== Sys2Proof/Machine/State.lean ====
section
/-! DEFINITION. The state of the machine as plain data (10_state.md R20), the fault codes (60_exceptions.md R241),
and the state after reset (R41, R280). -/

namespace Sys2Proof.Machine

/-- The spec's fault codes 1 to 10 (R241). A fault is TAKEN: the step or transaction that raises it answers the next
state in which FAULT holds its record (R250, R251), so no step of this machine answers `Host.Outcome.fault` (log 3). -/
inductive Fault where
  /-- Code 1, raised by decode of any step (R242). Safe: the spec names it fatal. -/
  | unknownOpcode
  /-- Code 2, raised by the fetch of any step (R243). Safe: the spec names it fatal. -/
  | fetchOutOfBounds
  /-- Code 3, raised by Dxyn and Fx65 (R244). Safe: the spec names it fatal. -/
  | memReadOutOfBounds
  /-- Code 4, raised by Fx33 and Fx55 (R244). Safe: the spec names it fatal. -/
  | memWriteOutOfBounds
  /-- Code 5, raised by Fx33 and Fx55 while LOW_WRITE_FAULT (R245). Safe: the spec's decision D5. -/
  | protectedWrite
  /-- Code 6, raised by 2nnn (R246). Safe: the spec names it fatal. -/
  | stackOverflow
  /-- Code 7, raised by 00EE (R246). Safe: the spec names it fatal. -/
  | stackUnderflow
  /-- Code 8, raised by Ex9E and ExA1 (R247). Safe: the spec's decision D7. -/
  | keyIndexOutOfRange
  /-- Code 9, raised by the host's load (R248). Safe: the spec names it fatal. -/
  | loadTooLarge
  /-- Code 10, raised by the host's set_key (R249). Safe: the spec's decision D20. -/
  | hostKeyIndexOutOfRange
  deriving DecidableEq, Repr

/-- Why a step would have no meaning. Every instruction has one, so nothing raises it. -/
inductive Refusal where
  /-- An instruction not modelled yet, by its mnemonic. No arm of exec uses it. Safe. -/
  | notModelled (mnemonic : String)
  deriving DecidableEq, Repr

/-- The fault record {code, opcode, pc, addr} (R251). -/
structure FaultRecord where
  /-- A code of R241. -/
  code : Fault
  /-- The fetched word; none for FetchOutOfBounds and the host faults. -/
  opcode : Option Word
  /-- PC at the start of the step, or at the time of the host's call. -/
  pc : Word
  /-- Column "addr recorded" of R241: an unbounded natural (R62). -/
  addr : Nat
  deriving DecidableEq, Repr

/-- The framebuffer: 32 rows of 64 pixels, row-major (R35). -/
abbrev Frame := Vector (Vector Bool 64) 32

/-- The bytes of memory that differ from their reset content, addresses strictly rising (Machine/Memory.lean). -/
abbrev Memory := List Host.Cell

/-- The machine state (R20), with two fields of the model's own: `params` and `draws`. -/
structure State where
  /-- M: the bytes that differ from the reset content (R37, R50). -/
  mem : Memory
  /-- V0..VF (R21, R22). -/
  v : Vector Byte 16
  /-- I (R29). -/
  idx : Word
  /-- PC (R24). -/
  pc : Word
  /-- STACK: the call-stack slots (R31). -/
  stack : Vector Word 16
  /-- SP: the number of stack entries in use, 0..16 (R31). -/
  sp : Fin 17
  /-- DT (R33). -/
  dt : Byte
  /-- ST (R34). -/
  st : Byte
  /-- FB (R35). -/
  fb : Frame
  /-- KEY: the pressed flags (R36). -/
  key : Vector Bool 16
  /-- FAULT: none while the machine runs (R38). -/
  fault : Option FaultRecord
  /-- The model's own: the parameters of R10, which nothing changes (log 1). -/
  params : Params
  /-- The model's own: how many draws have been taken (log 2). -/
  draws : Nat
  deriving DecidableEq, Repr

/-- The state initialize() makes on a machine with parameters p (R41, R280). Memory lists nothing: every byte reads as
its reset content, FONT below 0x050 and zero above. `draws` is the number of the next draw: reset does not reseed. -/
def State.initial (p : Params) (draws : Nat) : State :=
  { mem := []
    v := Vector.replicate 16 0
    idx := 0
    pc := 0x200
    stack := Vector.replicate 16 0
    sp := 0
    dt := 0
    st := 0
    fb := Vector.replicate 32 (Vector.replicate 64 false)
    key := Vector.replicate 16 false
    fault := none
    params := p
    draws := draws }

/-- The machine right after reset (R41), with the default parameters (log 1) and its first draw to come (log 2). -/
def State.reset : State := State.initial defaultParams 0

/-- What a step or a meaning answers. -/
abbrev Result := Host.Outcome State Fault Refusal

end Sys2Proof.Machine
end

