-- ==== Sys2Proof/Machine/Framebuffer.lean ====
section
/-! DEFINITION. The framebuffer's pixels (10_state.md R35) and the drawing of a sprite (43_display.md R202-R207). -/

namespace Sys2Proof.Machine

/-- A pixel's place: column px in 0..64 and row py in 0..32 (R35). -/
abbrev Pixel := Fin 64 × Fin 32

/-- FB[px][py]. -/
def Frame.pixel (fb : Frame) (p : Pixel) : Bool := fb[p.2][p.1]

/-- FB[px][py] <- b. -/
def Frame.setPixel (fb : Frame) (p : Pixel) (b : Bool) : Frame :=
  fb.set p.2.val (fb[p.2].set p.1.val b p.1.isLt) p.2.isLt

/-- The screen with every pixel off (R201). -/
def blankFrame : Frame := Vector.replicate 32 (Vector.replicate 64 false)

/-- Where sprite bit (row, col) lands: coordinates wrap on both axes (R203). -/
def spriteDest (px0 py0 : Byte) (row col : Nat) : Pixel :=
  (⟨(px0.toNat + col) % 64, Nat.mod_lt _ (by decide)⟩, ⟨(py0.toNat + row) % 32, Nat.mod_lt _ (by decide)⟩)

/-- b[7 - col]: "most-significant first" (R202). -/
def spriteBit (b : Byte) (col : Nat) : Bool := b.getLsbD (7 - col)

/-- The pixels under the set bits of one sprite row. -/
def rowPixels (px0 py0 : Byte) (row : Nat) (b : Byte) : List Pixel :=
  ((List.range 8).filter (spriteBit b)).map (spriteDest px0 py0 row)

/-- The pixels under the set bits of a sprite whose first byte is row number `row`, rows top to bottom (R202). -/
def spritePixels (px0 py0 : Byte) (row : Nat) : List Byte → List Pixel
  | [] => []
  | b :: rest => rowPixels px0 py0 row b ++ spritePixels px0 py0 (row + 1) rest

/-- Update(p) by DRAW_MODE (R204). -/
def updatePixel (mode : DrawMode) (old : Bool) : Bool :=
  match mode with
  | .forceOn => true
  | .xor => !old

/-- NEW: each pixel under a set bit is updated from the framebuffer as it was before the instruction (R202). -/
def drawPixels (mode : DrawMode) (old : Frame) (dests : List Pixel) : Frame :=
  dests.foldl (fun new p => new.setPixel p (updatePixel mode (old.pixel p))) old

/-- hit: some set bit lands on a pixel that was on before the instruction (R205). -/
def collides (old : Frame) (dests : List Pixel) : Bool := dests.any old.pixel

end Sys2Proof.Machine
end

