-- ==== Sys2Proof/Machine/Memory.lean ====
section
/-! DEFINITION. Memory as a list of cells in one canonical form (20_memory.md R50-R53): an address the list does not
hold reads as its reset content. -/

namespace Sys2Proof.Machine

/-- What an unlisted address reads as, its content after initialize: FONT at 0x000-0x04F, zero elsewhere (R52, R53). -/
def Memory.resetByte (font : Vector Byte 80) (a : Nat) : Byte := if h : a < 80 then font[a] else 0

/-- M[a]. -/
def Memory.read (font : Vector Byte 80) : Memory → Nat → Byte
  | [], a => Memory.resetByte font a
  | (k, b) :: rest, a => if k = a then b else Memory.read font rest a

/-- The cells after b is stored at a, before the cells `rest` of higher addresses: a cell that holds its reset content
is not listed. -/
def Memory.place (font : Vector Byte 80) (a : Nat) (b : Byte) (rest : Memory) : Memory :=
  if b = Memory.resetByte font a then rest else (a, b) :: rest

/-- M[a] <- b. -/
def Memory.write (font : Vector Byte 80) : Memory → Nat → Byte → Memory
  | [], a, b => Memory.place font a b []
  | (k, c) :: rest, a, b =>
    if a < k then Memory.place font a b ((k, c) :: rest)
    else if a = k then Memory.place font a b rest
    else (k, c) :: Memory.write font rest a b

/-- The canonical form: addresses strictly rising and inside 0x000-0xFFF (R50), no cell at its reset content. -/
abbrev Memory.wf (font : Vector Byte 80) (m : Memory) : Prop :=
  m.Pairwise (fun c d => c.1 < d.1) ∧ ∀ c ∈ m, c.1 < Config.memSize ∧ c.2 ≠ Memory.resetByte font c.1

/-- The addresses base, base + 1, …, base + len - 1, ascending, as unbounded naturals (R62). -/
def rangeAddrs (base len : Nat) : List Nat := (List.range len).map (base + ·)

/-- MemRead's own check (R55). -/
def memReadFault (a : Nat) : Option Fault := if a > 0xFFF then some .memReadOutOfBounds else none

/-- MemWrite's own checks (R56). -/
def memWriteFault (lowWriteFault : Bool) (a : Nat) : Option Fault :=
  if a > 0xFFF then some .memWriteOutOfBounds
  else if lowWriteFault && decide (a < Config.programBase) then some .protectedWrite
  else none

/-- CheckRange (42_index_memory.md R188): the first failing check and its address, every upper-bound check before
every low-write check, each ascending. -/
def checkRange (lowWriteFault isWrite : Bool) (base len : Nat) : Option (Fault × Nat) :=
  match (rangeAddrs base len).find? (fun a => decide (a > 0xFFF)) with
  | some a => some (if isWrite then .memWriteOutOfBounds else .memReadOutOfBounds, a)
  | none =>
    if isWrite && lowWriteFault then
      ((rangeAddrs base len).find? (fun a => decide (a < Config.programBase))).map (Fault.protectedWrite, ·)
    else none

end Sys2Proof.Machine
end

