-- ==== Sys2Proof/Machine/Ops.lean ====
section
/-! DEFINITION. The named operations over the state: registers, program counter, call stack, memory, and taking a
fault, which is the one exception this machine has (60_exceptions.md R240, R255). There is no return from a fault
(R256): only initialize/reset clears it (Machine/Transactions.lean). -/

namespace Sys2Proof.Machine

/-- V[x] (00_scope.md R14). -/
def State.getV (s : State) (x : Reg) : Byte := s.v[x]

/-- V[x] <- b. -/
def State.setV (s : State) (x : Reg) (b : Byte) : State := { s with v := s.v.set x.val b x.isLt }

/-- I <- w. -/
def State.setI (s : State) (w : Word) : State := { s with idx := w }

/-- PC <- w. -/
def State.setPC (s : State) (w : Word) : State := { s with pc := w }

/-- The fetch advance: PC <- (a + 2) mod 2^16 (30_encoding.md R76). -/
def State.advance (s : State) : State := { s with pc := s.pc + 2 }

/-- Skip, when the condition holds: PC <- (PC + 2) mod 2^16 (40_control_flow.md R100, R102). -/
def State.skipIf (s : State) (c : Bool) : State := if c then { s with pc := s.pc + 2 } else s

/-- Fx0A's rewind: PC <- PC - 2 (44_keypad_timers.md R224). -/
def State.rewind (s : State) : State := { s with pc := s.pc - 2 }

/-- M[a] (20_memory.md R55, after its check). -/
def State.readByte (s : State) (a : Nat) : Byte := s.mem.read s.params.font a

/-- M[a] <- b (20_memory.md R56, after its checks). -/
def State.writeByte (s : State) (a : Nat) (b : Byte) : State := { s with mem := s.mem.write s.params.font a b }

/-- The n bytes from base, ascending (R60, R62). -/
def State.readBytes (s : State) (base n : Nat) : List Byte := (rangeAddrs base n).map s.readByte

/-- The bytes stored from base upwards, in ascending order (R60, R62). -/
def State.storeBytes (s : State) (base : Nat) : List Byte → State
  | [] => s
  | b :: rest => (s.writeByte base b).storeBytes (base + 1) rest

/-- Fetch(PC): the big-endian word at PC, or none where PC > 0xFFF or PC + 1 > 0xFFF (R57, R58). -/
def State.fetch (s : State) : Option Word :=
  if s.pc.toNat > 0xFFF ∨ s.pc.toNat + 1 > 0xFFF then none
  else some (bigEndian (s.readByte s.pc.toNat) (s.readByte (s.pc.toNat + 1)))

/-- Push: STACK[SP] <- w, then SP <- SP + 1 (10_state.md R31). On a full stack it does nothing: 2nnn checks first. -/
def State.push (s : State) (w : Word) : State :=
  if h : s.sp.val < 16 then
    { s with stack := s.stack.set s.sp.val w h, sp := ⟨s.sp.val + 1, by omega⟩ }
  else s

/-- Pop into PC: SP <- SP - 1, then PC <- STACK[SP] (R31). On an empty stack it does nothing: 00EE checks first. -/
def State.popPC (s : State) : State :=
  if h : 0 < s.sp.val then
    { s with sp := ⟨s.sp.val - 1, by omega⟩, pc := s.stack[s.sp.val - 1]'(by omega) }
  else s

/-- The number of a fault code (60_exceptions.md R241). -/
def Fault.number : Fault → Nat
  | .unknownOpcode => 1
  | .fetchOutOfBounds => 2
  | .memReadOutOfBounds => 3
  | .memWriteOutOfBounds => 4
  | .protectedWrite => 5
  | .stackOverflow => 6
  | .stackUnderflow => 7
  | .keyIndexOutOfRange => 8
  | .loadTooLarge => 9
  | .hostKeyIndexOutOfRange => 10

/-- Taking a fault, from the state before the step or transaction: FAULT <- Some {code, opcode, pc, addr}, and every
other element keeps its value (60_exceptions.md R250, R251). -/
def State.withFault (s : State) (code : Fault) (opcode : Option Word) (addr : Nat) : State :=
  { s with fault := some { code := code, opcode := opcode, pc := s.pc, addr := addr } }

/-- `raise Fault(code, opcode, addr)` in the step that began in s (00_scope.md R15). -/
def raise (code : Fault) (opcode : Option Word) (addr : Nat) (s : State) : Result :=
  .next (s.withFault code opcode addr)

/-- The instruction's own check, then its effect (R253): a failed check raises its fault in the state before the step,
otherwise the step answers `done`. -/
def checked (check : Option (Fault × Nat)) (opcode : Word) (s done : State) : Result :=
  match check with
  | some (code, addr) => raise code (some opcode) addr s
  | none => .next done

/-- 2nnn's check: StackOverflow at the instruction's own address when SP = 16 (40_control_flow.md R107, R241). -/
def State.pushCheck (s : State) : Option (Fault × Nat) :=
  if s.sp.val = 16 then some (.stackOverflow, s.pc.toNat) else none

/-- 00EE's check: StackUnderflow at the instruction's own address when SP = 0 (R104, R241). -/
def State.popCheck (s : State) : Option (Fault × Nat) :=
  if s.sp.val = 0 then some (.stackUnderflow, s.pc.toNat) else none

/-- CheckRange over a read of len bytes from I (42_index_memory.md R188). -/
def State.readCheck (s : State) (len : Nat) : Option (Fault × Nat) :=
  checkRange s.params.lowWriteFault false s.idx.toNat len

/-- CheckRange over a write of len bytes from I (R188). -/
def State.writeCheck (s : State) (len : Nat) : Option (Fault × Nat) :=
  checkRange s.params.lowWriteFault true s.idx.toNat len

/-- One draw has been taken: the next one is another (60_exceptions.md R265, log 2). -/
def State.nextDraw (s : State) : State := { s with draws := s.draws + 1 }

end Sys2Proof.Machine
end

