-- ==== Sys2Proof/Machine/Flags.lean ====
section
/-! DEFINITION. What each flag-writing instruction puts in VF (10_state.md R28), and the order of its two writes
(41_alu.md R141). -/

namespace Sys2Proof.Machine

/-- A flag as a byte: 1 or 0. -/
def flagByte (c : Bool) : Byte := if c then 1 else 0

/-- 8xy4: carry out of p + q (R148). -/
def carryFlag (p q : Byte) : Byte := flagByte (decide (p.toNat + q.toNat ≥ 256))

/-- 8xy5 and 8xy7: NOT borrow of minuend - subtrahend (R149, R151). -/
def notBorrowFlag (minuend subtrahend : Byte) : Byte := flagByte (!decide (minuend.toNat < subtrahend.toNat))

/-- 8xy6: the bit shifted out, bit 0 (R150). -/
def shiftedOutLow (p : Byte) : Byte := p &&& 1

/-- 8xyE: the bit shifted out, bit 7 (R152). -/
def shiftedOutHigh (p : Byte) : Byte := (p >>> 7) &&& 1

/-- The order of the clauses in the source's table (R141). -/
inductive ClauseOrder where
  /-- "Vx = …; VF = …": 8xy4, 8xy5, 8xy7. -/
  | resultThenFlag
  /-- "VF = …; Vx = …": 8xy6, 8xyE. -/
  | flagThenResult
  deriving DecidableEq, Repr

/-- V[x] <- result and VF <- flag, in the order VF_ALIAS says (R141). Under Unconstrained, when x = 0xF the final VF is
a draw (log 2). -/
def State.setVAndFlag (s : State) (order : ClauseOrder) (x : Reg) (result flag : Byte) : State :=
  match s.params.vfAlias, order with
  | .textOrder, .resultThenFlag => (s.setV x result).setV VF flag
  | .textOrder, .flagThenResult => (s.setV VF flag).setV x result
  | .flagLast, _ => (s.setV x result).setV VF flag
  | .unconstrained, _ =>
    if x = VF then (s.setV VF (Config.vfDraw s.draws)).nextDraw else (s.setV x result).setV VF flag

end Sys2Proof.Machine
end

