-- ==== Sys2Proof/Machine/Operands.lean ====
section
/-! DEFINITION. The operand forms: how an instruction's fields and registers become addresses, key numbers, register
ranges and bytes (30_encoding.md R72; files 40 to 44). -/

namespace Sys2Proof.Machine

/-- zext_16(nnn) (R72). -/
def addrNnn (nnn : Imm12) : Word := nnn.setWidth 16

/-- zext_16(V[x]) (00_scope.md R13). -/
def zextByte (b : Byte) : Word := b.setWidth 16

/-- The key a byte names, or none above 0xF (44_keypad_timers.md R227). -/
def keyOf (b : Byte) : Option Key := if h : b.toNat < 16 then some ⟨b.toNat, h⟩ else none

/-- Ex9E's and ExA1's check: KeyIndexOutOfRange at the instruction's own address (R227, R241). -/
def State.keyCheck (s : State) (b : Byte) : Option (Fault × Nat) :=
  match keyOf b with
  | some _ => none
  | none => some (.keyIndexOutOfRange, s.pc.toNat)

/-- KEY[k] of the key a byte names; false where it names none, which the check has excluded. -/
def State.keyPressed (s : State) (b : Byte) : Bool :=
  match keyOf b with
  | some k => s.key[k]
  | none => false

/-- The first pressed key, scanning 0 to 15 (R224). -/
def State.firstKey (s : State) : Option Key := (List.finRange 16).find? (fun k => s.key[k])

/-- V0, V1, …, Vx (42_index_memory.md R185, R187). -/
def regsUpTo (x : Reg) : List Reg := (List.finRange 16).filter (· ≤ x)

/-- The values of V0..Vx, ascending (R185). -/
def State.regBytes (s : State) (x : Reg) : List Byte := (regsUpTo x).map s.getV

/-- V[k] <- M[base + k] for each k of a list of registers (R187). -/
def State.loadRegs (s : State) (base : Nat) (ks : List Reg) : State :=
  ks.foldl (fun t k => t.setV k (s.readByte (base + k.val))) s

/-- Fx29's glyph address: zext_16(V[x]) * 5 (R183). -/
def glyphAddr (b : Byte) : Word := zextByte b * 5

/-- Fx33's digits: hundreds, tens, ones (R184). -/
def bcdDigits (b : Byte) : List Byte :=
  [BitVec.ofNat 8 (b.toNat / 100), BitVec.ofNat 8 (b.toNat / 10 % 10), BitVec.ofNat 8 (b.toNat % 10)]

/-- The pixels under the set bits of the n-row sprite at I, drawn at (V[x], V[y]) (43_display.md R202). -/
def State.spriteAt (s : State) (x y : Reg) (n : Nat) : List Pixel :=
  spritePixels (s.getV x) (s.getV y) 0 (s.readBytes s.idx.toNat n)

end Sys2Proof.Machine
end

