-- ==== Sys2Proof/Machine/Alu.lean ====
section
/-! DEFINITION. Registers, arithmetic and bitwise instructions (41_alu.md). BitVec 8 arithmetic is arithmetic modulo
256 (R154). Every operand is read from the state before the step (R140). -/

namespace Sys2Proof.Machine

/-- 6xnn (R142). -/
def execLdVxNn (x : Reg) (nn : Byte) (s : State) : Result := .next (s.advance.setV x nn)

/-- 7xnn (R143): wraps, no flag. -/
def execAddVxNn (x : Reg) (nn : Byte) (s : State) : Result := .next (s.advance.setV x (s.getV x + nn))

/-- 8xy0 (R144). -/
def execLdVxVy (x y : Reg) (s : State) : Result := .next (s.advance.setV x (s.getV y))

/-- 8xy1 (R145). -/
def execOrVxVy (x y : Reg) (s : State) : Result := .next (s.advance.setV x (s.getV x ||| s.getV y))

/-- 8xy2 (R146). -/
def execAndVxVy (x y : Reg) (s : State) : Result := .next (s.advance.setV x (s.getV x &&& s.getV y))

/-- 8xy3 (R147). -/
def execXorVxVy (x y : Reg) (s : State) : Result := .next (s.advance.setV x (s.getV x ^^^ s.getV y))

/-- 8xy4 (R148). -/
def execAddVxVy (x y : Reg) (s : State) : Result :=
  .next (s.advance.setVAndFlag .resultThenFlag x (s.getV x + s.getV y) (carryFlag (s.getV x) (s.getV y)))

/-- 8xy5 (R149). -/
def execSubVxVy (x y : Reg) (s : State) : Result :=
  .next (s.advance.setVAndFlag .resultThenFlag x (s.getV x - s.getV y) (notBorrowFlag (s.getV x) (s.getV y)))

/-- 8xy6 (R150): a logical shift by one; the field y selects no operand (R84). -/
def execShrVxVy (x _y : Reg) (s : State) : Result :=
  .next (s.advance.setVAndFlag .flagThenResult x (s.getV x >>> 1) (shiftedOutLow (s.getV x)))

/-- 8xy7 (R151). -/
def execSubnVxVy (x y : Reg) (s : State) : Result :=
  .next (s.advance.setVAndFlag .resultThenFlag x (s.getV y - s.getV x) (notBorrowFlag (s.getV y) (s.getV x)))

/-- 8xyE (R152); the field y selects no operand (R84). -/
def execShlVxVy (x _y : Reg) (s : State) : Result :=
  .next (s.advance.setVAndFlag .flagThenResult x (s.getV x <<< 1) (shiftedOutHigh (s.getV x)))

/-- Cxnn with the draw r (R153): V[x] <- r & nn. -/
def rndWith (r : Byte) (x : Reg) (nn : Byte) (s : State) : State := s.advance.setV x (r &&& nn)

/-- Cxnn (R153): the draw is a byte under no law (R265, log 2). -/
def execRndVxNn (x : Reg) (nn : Byte) (s : State) : Result :=
  .next (rndWith (Config.rand8 s.draws) x nn s).nextDraw

end Sys2Proof.Machine
end

