-- ==== Sys2Proof/Machine/Control.lean ====
section
/-! DEFINITION. Control flow (40_control_flow.md). Each meaning takes the state before the step: PC is the address
`a` the instruction was fetched from, and `s.advance` is the state the execute stage sees (R100, log 8). -/

namespace Sys2Proof.Machine

/-- 0000 (R101): no effect but the fetch advance. -/
def execNop (s : State) : Result := .next s.advance

/-- 00EE (R104). -/
def execRet (s : State) : Result := checked s.popCheck (encode .ret) s s.advance.popPC

/-- 1nnn (R105). -/
def execJpNnn (nnn : Imm12) (s : State) : Result := .next (s.advance.setPC (addrNnn nnn))

/-- 2nnn (R107): the advanced PC is pushed. -/
def execCallNnn (nnn : Imm12) (s : State) : Result :=
  checked s.pushCheck (encode (.callNnn nnn)) s ((s.advance.push s.advance.pc).setPC (addrNnn nnn))

/-- 3xnn (R108). -/
def execSeVxNn (x : Reg) (nn : Byte) (s : State) : Result := .next (s.advance.skipIf (s.getV x == nn))

/-- 4xnn (R109). -/
def execSneVxNn (x : Reg) (nn : Byte) (s : State) : Result := .next (s.advance.skipIf (s.getV x != nn))

/-- 5xy0 (R110). -/
def execSeVxVy (x y : Reg) (s : State) : Result := .next (s.advance.skipIf (s.getV x == s.getV y))

/-- 9xy0 (R111). -/
def execSneVxVy (x y : Reg) (s : State) : Result := .next (s.advance.skipIf (s.getV x != s.getV y))

/-- Bnnn (R112): always V0, a 16-bit sum. -/
def execJpV0Nnn (nnn : Imm12) (s : State) : Result :=
  .next (s.advance.setPC (zextByte (s.getV 0) + addrNnn nnn))

end Sys2Proof.Machine
end

