-- ==== Sys2Proof/Machine/Display.lean ====
section
/-! DEFINITION. The framebuffer instructions (43_display.md). -/

namespace Sys2Proof.Machine

/-- 00E0 (R201). -/
def execCls (s : State) : Result := .next { s.advance with fb := blankFrame }

/-- Dxyn (R202): the coordinates and collisions are those of the state before the step; VF is always written. -/
def execDrwVxVyN (x y : Reg) (n : Fin 16) (s : State) : Result :=
  checked (s.readCheck n.val) (encode (.drwVxVyN x y n)) s
    ({ s.advance with fb := drawPixels s.params.drawMode s.fb (s.spriteAt x y n.val) }.setV VF
      (flagByte (collides s.fb (s.spriteAt x y n.val))))

end Sys2Proof.Machine
end

