-- ==== Sys2Proof/Machine/Index.lean ====
section
/-! DEFINITION. The index register and memory instructions (42_index_memory.md). -/

namespace Sys2Proof.Machine

/-- Annn (R181). -/
def execLdINnn (nnn : Imm12) (s : State) : Result := .next (s.advance.setI (addrNnn nnn))

/-- Fx1E (R182): wraps at 2^16, no flag. -/
def execAddIVx (x : Reg) (s : State) : Result := .next (s.advance.setI (s.idx + zextByte (s.getV x)))

/-- Fx29 (R183): the full byte times 5. -/
def execLdFVx (x : Reg) (s : State) : Result := .next (s.advance.setI (glyphAddr (s.getV x)))

/-- Fx33 (R184): I is unchanged (R186). -/
def execLdBVx (x : Reg) (s : State) : Result :=
  checked (s.writeCheck 3) (encode (.ldBVx x)) s (s.advance.storeBytes s.idx.toNat (bcdDigits (s.getV x)))

/-- Fx55 (R185): I is unchanged (R186). -/
def execLdMemVx (x : Reg) (s : State) : Result :=
  checked (s.writeCheck (x.val + 1)) (encode (.ldMemVx x)) s (s.advance.storeBytes s.idx.toNat (s.regBytes x))

/-- Fx65 (R187): I is unchanged (R186). -/
def execLdVxMem (x : Reg) (s : State) : Result :=
  checked (s.readCheck (x.val + 1)) (encode (.ldVxMem x)) s (s.advance.loadRegs s.idx.toNat (regsUpTo x))

end Sys2Proof.Machine
end

