-- ==== Sys2Proof/Machine/Keypad.lean ====
section
/-! DEFINITION. The keypad and timer instructions (44_keypad_timers.md). -/

namespace Sys2Proof.Machine

/-- Ex9E (R221). -/
def execSkpVx (x : Reg) (s : State) : Result :=
  checked (s.keyCheck (s.getV x)) (encode (.skpVx x)) s (s.advance.skipIf (s.keyPressed (s.getV x)))

/-- ExA1 (R222). -/
def execSknpVx (x : Reg) (s : State) : Result :=
  checked (s.keyCheck (s.getV x)) (encode (.sknpVx x)) s (s.advance.skipIf (!s.keyPressed (s.getV x)))

/-- Fx07 (R223). -/
def execLdVxDT (x : Reg) (s : State) : Result := .next (s.advance.setV x s.dt)

/-- Fx0A (R224): the lowest pressed key, or PC back at this instruction. -/
def execLdVxK (x : Reg) (s : State) : Result :=
  match s.firstKey with
  | some k => .next (s.advance.setV x (BitVec.ofNat 8 k.val))
  | none => .next s.advance.rewind

/-- Fx15 (R225). -/
def execLdDTVx (x : Reg) (s : State) : Result := .next { s.advance with dt := s.getV x }

/-- Fx18 (R226). -/
def execLdSTVx (x : Reg) (s : State) : Result := .next { s.advance with st := s.getV x }

end Sys2Proof.Machine
end

