-- ==== Sys2Proof/Machine/Step.lean ====
section
/-! DEFINITION. One step of the machine (30_encoding.md R74), and placing an instruction where it fetches next. -/

namespace Sys2Proof.Machine

/-- step() (R74), its stages in the order of 60_exceptions.md R253. The draw input r is taken inside Cxnn (log 2). -/
def step (s : State) : Result :=
  match s.fault with
  | some _ => .next s
  | none =>
    match s.fetch with
    | none => raise .fetchOutOfBounds none s.pc.toNat s
    | some w =>
      match decode w with
      | none => raise .unknownOpcode (some w) s.pc.toNat s
      | some i => exec i s

/-- s with an instruction of `nbits` bits w stored where step fetches next. The fetch needs a running machine and a PC
it can fetch from: FAULT is cleared, and a PC above 0xFFE becomes 0x200 (log 7). -/
def State.withFetchWord (s : State) (nbits w : Nat) : State :=
  let word : Word := BitVec.ofNat 16 (w % 2 ^ nbits)
  let a : Word := if s.pc.toNat ≤ 0xFFE then s.pc else 0x200
  ({ s with fault := none, pc := a }.writeByte a.toNat (highByte word)).writeByte (a.toNat + 1) (lowByte word)

end Sys2Proof.Machine
end

