-- ==== Sys2Proof/Machine/Transactions.lean ====
section
/-! DEFINITION. The Core API beside step(): the host's transactions (60_exceptions.md R260), each one indivisible
(R266). The host's schedule is not part of the machine: every finite or infinite sequence of transactions is a run
(log 4). -/

namespace Sys2Proof.Machine

/-- initialize() and reset(), the same transaction (70_reset_and_hazards.md R280, R281), accepted in every state. The
parameters stay, and the draws go on: reset does not reseed (93_implementation_defined.md row 23, log 2). -/
def State.afterReset (s : State) : State := State.initial s.params s.draws

/-- load(bytes) (R282): the length is checked before any byte is written; only M[0x200..0x200 + len) changes. -/
def State.load (s : State) (bytes : List Byte) : State :=
  if s.fault.isSome then s
  else if Config.programBase + bytes.length > Config.memSize then
    s.withFault .loadTooLarge none (Config.programBase + bytes.length)
  else s.storeBytes Config.programBase bytes

/-- One tick of an 8-bit timer: down by one, "clamp at zero" (R261). -/
def tickDown (t : Byte) : Byte := if t = 0 then 0 else t - 1

/-- tick_timers(), the state after (R261). -/
def State.tickTimers (s : State) : State :=
  if s.fault.isSome then s else { s with dt := tickDown s.dt, st := tickDown s.st }

/-- What tick_timers() returns: whether the sound timer went "1→0" (R261, R263); nothing on a halted machine (log 6). -/
def State.soundEnd (s : State) : Option Bool := if s.fault.isSome then none else some (s.st == 1)

/-- set_key(index, pressed) (R262). -/
def State.setKey (s : State) (index : Nat) (pressed : Bool) : State :=
  if s.fault.isSome then s
  else if h : index < 16 then { s with key := s.key.set index pressed h }
  else s.withFault .hostKeyIndexOutOfRange none index

/-- display(): the framebuffer as the last completed transition left it (R264). -/
def State.display (s : State) : Frame := s.fb

/-- sound_active = (ST ≠ 0) (R263). -/
def State.soundActive (s : State) : Bool := s.st != 0

/-- The transactions of R260. -/
inductive Transaction where
  /-- initialize() or reset(). -/
  | reset
  /-- load(bytes). -/
  | load (bytes : List Byte)
  /-- step(). -/
  | step
  /-- tick_timers(). -/
  | tickTimers
  /-- set_key(index, pressed). -/
  | setKey (index : Nat) (pressed : Bool)
  /-- display(). -/
  | display
  /-- The read-only outputs DT, ST, sound_active and FAULT. -/
  | readOutputs
  deriving DecidableEq, Repr

/-- What a transaction tells the host. -/
inductive Response where
  /-- Nothing but that it completed, or the fault record the machine then holds (R252: reported again). -/
  | done (report : Option FaultRecord)
  /-- tick_timers' return value. -/
  | soundEnd (ended : Option Bool)
  /-- display's view. -/
  | frame (fb : Frame)
  /-- DT, ST, sound_active and FAULT. -/
  | outputs (dt st : Byte) (soundActive : Bool) (fault : Option FaultRecord)
  deriving DecidableEq, Repr

/-- The state a transaction leaves. -/
def transact (t : Transaction) (s : State) : Result :=
  match t with
  | .reset => .next s.afterReset
  | .load bytes => .next (s.load bytes)
  | .step => Sys2Proof.Machine.step s
  | .tickTimers => .next s.tickTimers
  | .setKey index pressed => .next (s.setKey index pressed)
  | .display => .next s
  | .readOutputs => .next s

/-- What a transaction made in `before`, which left `after`, tells the host. -/
def respond (t : Transaction) (before after : State) : Response :=
  match t with
  | .reset => .done after.fault
  | .load _ => .done after.fault
  | .step => .done after.fault
  | .tickTimers => .soundEnd before.soundEnd
  | .setKey _ _ => .done after.fault
  | .display => .frame before.display
  | .readOutputs => .outputs before.dt before.st before.soundActive before.fault

/-- A finite run: the host makes the transactions one at a time, in the order of the list (R266). -/
def runHost : List Transaction → State → Result
  | [], s => .next s
  | t :: rest, s =>
    match transact t s with
    | .next s' => runHost rest s'
    | .fault r => .fault r
    | .refused r => .refused r

/-- An infinite sequence of transactions: which one the host makes after n others (R266). -/
abbrev Schedule := Nat → Transaction

/-- The infinite run of a schedule from s, as the sequence of what it has reached after n transactions (R266). Each one
completes before the next begins. Its finite beginnings are the runs of `runHost` (`runSchedule_eq_runHost`). -/
def runSchedule (schedule : Schedule) (s : State) : Nat → Result
  | 0 => .next s
  | n + 1 =>
    match runSchedule schedule s n with
    | .next t => transact (schedule n) t
    | .fault r => .fault r
    | .refused r => .refused r

end Sys2Proof.Machine
end

