-- ==== Sys2Proof/Safety.lean ====
section
/-! DEFINITION. What counts as a safe run, and the invariants of the machine, in the terms the statements use. -/

namespace Sys2Proof.Machine

/-- The machine runs: FAULT = None (10_state.md R38). A state with a fault is a bad end (70_reset_and_hazards.md
R293). -/
abbrev State.running (s : State) : Prop := s.fault = none

/-- A safe run of n steps: it ends in a machine that still runs. -/
abbrev SafeRun (n : Nat) (s : State) : Prop :=
  match Host.Core.run core n s with
  | .next t => t.fault = none
  | .fault _ => False
  | .refused _ => False

/-- Memory is in its canonical form (20_memory.md R50). -/
abbrev State.memWf (s : State) : Prop := s.mem.wf s.params.font

/-- No slot of the call stack holds more than 0x1000, the highest advanced PC (10_state.md R27: "a value that 2nnn
pushed, which is at most 0x1000"). -/
abbrev State.stackBounded (s : State) : Prop := ∀ k : Fin 16, s.stack[k].toNat ≤ 0x1000

/-- PC is at most 0x10FE (R27). -/
abbrev State.pcBounded (s : State) : Prop := s.pc.toNat ≤ 0x10FE

/-- A fault record holds the PC the machine still has (60_exceptions.md R250, R251, R252). -/
abbrev State.recordMatches (s : State) : Prop := ∀ r, s.fault = some r → r.pc = s.pc

/-- The invariant of the machine: canonical memory, bounded PC and stack, and a fault record that names the PC. -/
structure State.Inv (s : State) : Prop where
  memory : s.memWf
  stack : s.stackBounded
  pc : s.pcBounded
  record : s.recordMatches

/-- Every byte below 0x200 still has its reset content: "no write ever targets addresses below 0x200 except during
initialization of the font table" (20_memory.md R51). -/
abbrev State.lowMemoryIntact (s : State) : Prop :=
  ∀ a, a < Config.programBase → s.readByte a = Memory.resetByte s.params.font a

end Sys2Proof.Machine
end

