-- ==== Sys2Proof/Certificates/Slice0/Obligations.lean ====
section
/-! DEFINITION. The statements for the provers, and the words they are written in. -/

namespace Sys2Proof.Claims

open Sys2Proof.Machine

/-- A part of the state a statement may exempt from its frame. PC is never in the frame: each statement says it. -/
inductive Part where
  | reg (r : Reg)
  | index
  | memory
  | stack
  | delay
  | sound
  | screen
  | draws
  deriving DecidableEq, Repr

/-- The frame: from s to t nothing but PC and the named parts changes; KEY, FAULT and the parameters never do. -/
structure KeepsAllBut (parts : List Part) (s t : State) : Prop where
  reg : ∀ r, Part.reg r ∉ parts → t.getV r = s.getV r
  index : Part.index ∉ parts → t.idx = s.idx
  memory : Part.memory ∉ parts → ∀ a, t.readByte a = s.readByte a
  stack : Part.stack ∉ parts → t.sp = s.sp ∧ t.stack = s.stack
  delay : Part.delay ∉ parts → t.dt = s.dt
  sound : Part.sound ∉ parts → t.st = s.st
  screen : Part.screen ∉ parts → t.fb = s.fb
  draws : Part.draws ∉ parts → t.draws = s.draws
  keys : t.key = s.key
  fault : t.fault = s.fault
  params : t.params = s.params

/-- The instruction i executed in s raises the fault: FAULT takes the record and nothing else changes (R250, R251). -/
def Raises (i : Instr) (s : State) (code : Fault) (addr : Nat) : Prop :=
  exec i s = .next { s with fault := some { code := code, opcode := some (encode i), pc := s.pc, addr := addr } }

/-- A true skip leaves PC at a + 4, a false one at a + 2 (R102). -/
def skipPc (s : State) (c : Bool) : Word := if c then s.pc + 4 else s.pc + 2

/-- i is the instruction s fetches next. -/
def Fetches (s : State) (i : Instr) : Prop := ∃ w, s.fetch = some w ∧ decode w = some i

/-- What a flag-writing instruction leaves, for a destination other than VF and for VF itself under each VF_ALIAS that
fixes its value (R141); resultLast says that the table's clause order writes Vx last. -/
structure WritesResultAndFlag (resultLast : Bool) (s t : State) (x : Reg) (result flag : Byte) : Prop where
  dest : x ≠ VF → t.getV x = result ∧ t.getV VF = flag
  textOrder : x = VF → s.params.vfAlias = .textOrder → t.getV VF = if resultLast then result else flag
  flagLast : x = VF → s.params.vfAlias = .flagLast → t.getV VF = flag
  draws : x ≠ VF ∨ s.params.vfAlias ≠ .unconstrained → t.draws = s.draws
  pc : t.pc = s.pc + 2
  frame : KeepsAllBut [.reg x, .reg VF, .draws] s t

/-- The pixel p lies under a set bit of the n-row sprite at I drawn at (V[x], V[y]) (R202, R203). -/
def Covered (s : State) (x y : Reg) (n : Nat) (p : Pixel) : Prop :=
  ∃ row < n, ∃ col < 8, (s.readByte (s.idx.toNat + row)).getLsbD (7 - col) = true ∧
    p.1.val = ((s.getV x).toNat + col) % 64 ∧ p.2.val = ((s.getV y).toNat + row) % 32

/-- The bytes an instruction reads or writes from I: whether it writes, and how many (R60). -/
def accessOf : Instr → Option (Bool × Nat)
  | .drwVxVyN _ _ n => some (false, n.val)
  | .ldVxMem x => some (false, x.val + 1)
  | .ldBVx _ => some (true, 3)
  | .ldMemVx x => some (true, x.val + 1)
  | _ => none

/-- a is the lowest address of the range with the property P. -/
def IsFirst (P : Nat → Prop) (base len a : Nat) : Prop :=
  base ≤ a ∧ a < base + len ∧ P a ∧ ∀ b, base ≤ b → b < a → ¬ P b

/-- The registers an instruction writes (R23). -/
def registersWritten : Instr → List Reg
  | .ldVxNn x _ | .addVxNn x _ | .ldVxVy x _ | .orVxVy x _ | .andVxVy x _ | .xorVxVy x _ => [x]
  | .rndVxNn x _ | .ldVxDT x | .ldVxK x => [x]
  | .addVxVy x _ | .subVxVy x _ | .subnVxVy x _ | .shrVxVy x _ | .shlVxVy x _ => [x, VF]
  | .drwVxVyN _ _ _ => [VF]
  | .ldVxMem x => (List.finRange 16).filter (· ≤ x)
  | _ => []

/-- PC after a step of i that does not fault, from the address a = s.pc (R25). -/
def pcAfter (i : Instr) (s : State) : Word :=
  match i with
  | .seVxNn x nn => skipPc s (s.getV x == nn)
  | .sneVxNn x nn => skipPc s (s.getV x != nn)
  | .seVxVy x y => skipPc s (s.getV x == s.getV y)
  | .sneVxVy x y => skipPc s (s.getV x != s.getV y)
  | .skpVx x => skipPc s (s.key.toList.getD (s.getV x).toNat false)
  | .sknpVx x => skipPc s (!s.key.toList.getD (s.getV x).toNat false)
  | .jpNnn nnn | .callNnn nnn => BitVec.ofNat 16 nnn.toNat
  | .jpV0Nnn nnn => BitVec.ofNat 16 ((s.getV 0).toNat + nnn.toNat)
  | .ret => s.stack.toList.getD (s.sp.val - 1) 0
  | .ldVxK _ => if s.key.toList.any id then s.pc + 2 else s.pc
  | _ => s.pc + 2

/-- What R241 and R251 say of a record r that a transaction tr made in s leaves: the cause, the opcode, the pc and the
address recorded. -/
def NamesItsCause (tr : Transaction) (s : State) (r : FaultRecord) : Prop :=
  r.pc = s.pc ∧
  match r.code with
  | .unknownOpcode =>
    r.code.number = 1 ∧ tr = .step ∧ r.addr = s.pc.toNat ∧ r.opcode = s.fetch ∧
      ∃ w, s.fetch = some w ∧ decode w = none
  | .fetchOutOfBounds =>
    r.code.number = 2 ∧ tr = .step ∧ r.addr = s.pc.toNat ∧ r.opcode = none ∧ s.pc.toNat > 0xFFE
  | .memReadOutOfBounds =>
    r.code.number = 3 ∧ tr = .step ∧ r.opcode = s.fetch ∧ ∃ i len, Fetches s i ∧ accessOf i = some (false, len) ∧
      IsFirst (· > 0xFFF) s.idx.toNat len r.addr
  | .memWriteOutOfBounds =>
    r.code.number = 4 ∧ tr = .step ∧ r.opcode = s.fetch ∧ ∃ i len, Fetches s i ∧ accessOf i = some (true, len) ∧
      IsFirst (· > 0xFFF) s.idx.toNat len r.addr
  | .protectedWrite =>
    r.code.number = 5 ∧ tr = .step ∧ r.opcode = s.fetch ∧ s.params.lowWriteFault = true ∧
      ∃ i len, Fetches s i ∧ accessOf i = some (true, len) ∧ s.idx.toNat + len ≤ 0x1000 ∧
        IsFirst (· < 0x200) s.idx.toNat len r.addr
  | .stackOverflow =>
    r.code.number = 6 ∧ tr = .step ∧ r.addr = s.pc.toNat ∧ r.opcode = s.fetch ∧ s.sp.val = 16 ∧
      ∃ nnn, Fetches s (.callNnn nnn)
  | .stackUnderflow =>
    r.code.number = 7 ∧ tr = .step ∧ r.addr = s.pc.toNat ∧ r.opcode = s.fetch ∧ s.sp.val = 0 ∧ Fetches s .ret
  | .keyIndexOutOfRange =>
    r.code.number = 8 ∧ tr = .step ∧ r.addr = s.pc.toNat ∧ r.opcode = s.fetch ∧
      ∃ x, (s.getV x).toNat > 0xF ∧ (Fetches s (.skpVx x) ∨ Fetches s (.sknpVx x))
  | .loadTooLarge =>
    r.code.number = 9 ∧ r.opcode = none ∧
      ∃ bytes, tr = .load bytes ∧ r.addr = 0x200 + bytes.length ∧ 0x200 + bytes.length > 4096
  | .hostKeyIndexOutOfRange =>
    r.code.number = 10 ∧ r.opcode = none ∧ ∃ pressed, tr = .setKey r.addr pressed ∧ r.addr > 15

end Sys2Proof.Claims

open Sys2Proof Sys2Proof.Machine Sys2Proof.Claims

/-! Encoding and decoding. -/

/-- R77, R80, R86, R87: every instruction's word decodes to it, and so do its two bytes at the head of any bytes. That
the terms of 8xy6 and 8xyE hold the ignored field y is the model's choice (log entry 8). -/
def Obligations.DecodeOfEncodeIsTheInstruction : Prop :=
  ∀ (i : Instr) (rest : List Byte),
    decode (encode i) = some i ∧ decodeBytes (encodeBytes i ++ rest) = some (i, rest)

/-- The model's own (log entry 8, DEDUCED), beside R77 and R87: a word that decodes to an instruction is that
instruction's word, so no bit of a word is dropped. For 8xy6 and 8xyE, where R84 says that every y decodes to the same
instruction, this is the model's choice: their terms keep the ignored field y. -/
def Obligations.EncodeOfDecodeIsTheWord : Prop := ∀ (w : Word) (i : Instr), decode w = some i → encode i = w

/-- R77 (the spec's inference from R80): Decode gives an instruction of the one row of R80 that matches the word;
where no row matches, the step that fetches the word raises UnknownOpcode with that word and its address. -/
def Obligations.DecodeReturnsTheUniqueMatchingRow : Prop :=
  opcodeRows.length = 35 ∧
  (∀ w : Word, ∀ r ∈ opcodeRows, ∀ q ∈ opcodeRows, w &&& r.mask = r.bits → w &&& q.mask = q.bits → r = q) ∧
  (∀ (w : Word) (i : Instr), decode w = some i → rowOf i ∈ opcodeRows ∧ w &&& (rowOf i).mask = (rowOf i).bits) ∧
  (∀ (w : Word), ∀ r ∈ opcodeRows, w &&& r.mask = r.bits → ∃ i, decode w = some i ∧ rowOf i = r) ∧
  (∀ (s : State) (w : Word), s.fault = none → s.fetch = some w → (∀ r ∈ opcodeRows, w &&& r.mask ≠ r.bits) →
    step s = .next { s with fault := some ⟨.unknownOpcode, some w, s.pc, s.pc.toNat⟩ })

/-- R81 (the spec's decision D16): which words are unknown opcodes, by leading nibble. -/
def Obligations.UnknownWordsByLeadingNibble : Prop :=
  ∀ d1 d2 d3 d4 : Nibble, decode (d1 ++ d2 ++ d3 ++ d4) = none ↔
    (d1 = 0x0 ∧ d2 ++ d3 ++ d4 ≠ 0x000#12 ∧ d2 ++ d3 ++ d4 ≠ 0x0E0#12 ∧ d2 ++ d3 ++ d4 ≠ 0x0EE#12) ∨
    (d1 = 0x5 ∧ d4 ≠ 0) ∨
    (d1 = 0x8 ∧ d4 ∈ [0x8, 0x9, 0xA, 0xB, 0xC, 0xD, 0xF]) ∨
    (d1 = 0x9 ∧ d4 ≠ 0) ∨
    (d1 = 0xE ∧ d3 ++ d4 ∉ [0x9E#8, 0xA1#8]) ∨
    (d1 = 0xF ∧ d3 ++ d4 ∉ [0x07#8, 0x0A#8, 0x15#8, 0x18#8, 0x1E#8, 0x29#8, 0x33#8, 0x55#8, 0x65#8])

/-- R80: a word of each format, written out from the opcode map, decodes to the instruction it stands for. -/
def Obligations.SampleWordsDecode : Prop :=
  decode 0x00EE = some .ret ∧ decode 0x1234 = some (.jpNnn 0x234) ∧ decode 0x6A42 = some (.ldVxNn 0xA 0x42) ∧
  decode 0x8017 = some (.subnVxVy 0 1) ∧ decode 0xDAB5 = some (.drwVxVyN 0xA 0xB 5) ∧
  decode 0xF255 = some (.ldMemVx 2) ∧ decode 0xE19E = some (.skpVx 1) ∧ decodeTableWord 16 0xF20A = some (.ldVxK 2)

/-! The step. -/

/-- R74, R75, R57, R78: where the machine runs, PC is at most 0xFFE, and the big-endian word at PC decodes to i, a
step is i executed in that state. What the fetch advance adds is inside each meaning, the model's choice (log entry 8;
PC after it: `PcAfterStepFollowsTheTable`). -/
def Obligations.StepRunsTheDecodedInstruction : Prop :=
  ∀ (s : State) (i : Instr), s.fault = none → s.pc.toNat ≤ 0xFFE →
    decode (s.readByte s.pc.toNat ++ s.readByte (s.pc.toNat + 1)) = some i → step s = exec i s

/-- R58 (with the spec's decisions D11, D12): a fetch succeeds exactly when PC ≤ 0xFFE, odd or even, with the
big-endian word at PC and PC + 1; otherwise the step raises FetchOutOfBounds with the instruction's own address. -/
def Obligations.FetchSucceedsExactlyInsideMemory : Prop :=
  (∀ s : State, s.pc.toNat ≤ 0xFFE → s.fetch = some (s.readByte s.pc.toNat ++ s.readByte (s.pc.toNat + 1))) ∧
  (∀ s : State, s.pc.toNat > 0xFFE → s.fetch = none ∧ (s.fault = none →
    step s = .next { s with fault := some ⟨.fetchOutOfBounds, none, s.pc, s.pc.toNat⟩ }))

/-- R242: each unknown word raises UnknownOpcode when a step fetches it; unfetched, it raises nothing: a machine whose
next word is an instruction never raises it. -/
def Obligations.UnknownOpcodeIsRaisedExactlyWhenFetched : Prop :=
  ∀ s : State, s.fault = none →
    ((∃ w, s.fetch = some w ∧ decode w = none) ↔
      ∃ t r, step s = .next t ∧ t.fault = some r ∧ r.code = .unknownOpcode)

/-- R252 (the spec's decisions D8, D23): a halted machine changes nothing on step, tick_timers, set_key and load, step
reports the stored fault, display returns the frozen framebuffer, and only initialize clears FAULT. -/
def Obligations.HaltedMachineIsFrozen : Prop :=
  (∀ (s : State) (r : FaultRecord), s.fault = some r →
    (∀ tr : Transaction, tr ≠ .reset → transact tr s = .next s) ∧
    respond .step s s = .done (some r) ∧ respond .display s s = .frame s.fb ∧
    ∃ t, transact .reset s = .next t ∧ t.fault = none) ∧
  (∀ (s t : State) (tr : Transaction), s.fault ≠ none → transact tr s = .next t → t.fault = none → tr = .reset)

/-- R250 (the spec's decision D9): when a step or a host transaction raises a fault, every state element except FAULT
keeps its value. -/
def Obligations.FaultsLeaveNoPartialEffect : Prop :=
  ∀ (tr : Transaction) (s t : State), s.fault = none → transact tr s = .next t → t.fault ≠ none →
    t = { s with fault := t.fault }

/-- R241, R251 (the spec's decisions D5, D7, D8, D20): every fault record names its cause: the code's condition held,
and opcode, pc and addr are those of the table. -/
def Obligations.FaultRecordsNameTheirCause : Prop :=
  ∀ (tr : Transaction) (s t : State) (r : FaultRecord), s.fault = none → transact tr s = .next t →
    t.fault = some r → NamesItsCause tr s r

/-- The model's own (log entry 3, DEDUCED): a fault is taken as a next state with FAULT set and a halted machine's
step answers the same state, so every transaction of R260 answers a next state from every state, and none ends in a
fault or a refusal of the interface. -/
def Obligations.EveryTransactionAnswersNext : Prop :=
  ∀ (tr : Transaction) (s : State), ∃ t, transact tr s = .next t

/-- R25 (the spec's own table, from R76 and R100-R227): how a step leaves PC, for every instruction, and after any
fault. -/
def Obligations.PcAfterStepFollowsTheTable : Prop :=
  ∀ (s t : State), s.fault = none → step s = .next t →
    (t.fault ≠ none → t.pc = s.pc) ∧ (∀ i, Fetches s i → t.fault = none → t.pc = pcAfter i s)

/-! Which transaction may change which part of the state. -/

/-- R23: a register changes only by initialize or by a step of an instruction whose row of the table writes it. -/
def Obligations.RegistersChangeOnlyByTheirWriters : Prop :=
  ∀ (tr : Transaction) (s t : State) (r : Reg), transact tr s = .next t → t.getV r ≠ s.getV r →
    tr = .reset ∨ tr = .step ∧ ∃ i, Fetches s i ∧ r ∈ registersWritten i

/-- R32: only 2nnn and 00EE (and initialize) move the stack pointer, and only 2nnn (and initialize) changes a slot. -/
def Obligations.StackMovesOnlyByCallAndReturn : Prop :=
  ∀ (tr : Transaction) (s t : State), transact tr s = .next t →
    (t.sp ≠ s.sp → tr = .reset ∨ tr = .step ∧ ((∃ nnn, Fetches s (.callNnn nnn)) ∨ Fetches s .ret)) ∧
    (t.stack ≠ s.stack → tr = .reset ∨ tr = .step ∧ ∃ nnn, Fetches s (.callNnn nnn))

/-- R35: the framebuffer is "mutated only by the clear-screen and draw-sprite operations" (and initialize). -/
def Obligations.ScreenChangesOnlyByClearAndDraw : Prop :=
  ∀ (tr : Transaction) (s t : State), transact tr s = .next t → t.fb ≠ s.fb →
    tr = .reset ∨ tr = .step ∧ (Fetches s .cls ∨ ∃ x y n, Fetches s (.drwVxVyN x y n))

/-- R33, R34, R36: only Fx15 and tick_timers change DT, only Fx18 and tick_timers change ST, and only set_key changes
a key (and initialize all of them). -/
def Obligations.TimersAndKeysChangeOnlyByTheirWriters : Prop :=
  ∀ (tr : Transaction) (s t : State), transact tr s = .next t →
    (t.dt ≠ s.dt → tr = .reset ∨ tr = .tickTimers ∨ tr = .step ∧ ∃ x, Fetches s (.ldDTVx x)) ∧
    (t.st ≠ s.st → tr = .reset ∨ tr = .tickTimers ∨ tr = .step ∧ ∃ x, Fetches s (.ldSTVx x)) ∧
    (t.key ≠ s.key → tr = .reset ∨ ∃ index pressed, tr = .setKey index pressed)

/-- R29: only Annn, Fx1E and Fx29 (and initialize) write I; Dxyn, Fx33, Fx55 and Fx65 do not change it. -/
def Obligations.IndexChangesOnlyByItsWriters : Prop :=
  ∀ (tr : Transaction) (s t : State), transact tr s = .next t → t.idx ≠ s.idx →
    tr = .reset ∨ tr = .step ∧
      ((∃ nnn, Fetches s (.ldINnn nnn)) ∨ (∃ x, Fetches s (.addIVx x)) ∨ ∃ x, Fetches s (.ldFVx x))

/-- R50: writes to memory come only through Fx33 and Fx55, and through the host's initialize and load; and the
parameters of R10 never change. -/
def Obligations.MemoryChangesOnlyByItsWriters : Prop :=
  ∀ (tr : Transaction) (s t : State), transact tr s = .next t → t.params = s.params ∧
    ((∃ a, t.readByte a ≠ s.readByte a) → tr = .reset ∨ (∃ bytes, tr = .load bytes) ∨
      tr = .step ∧ ∃ x, Fetches s (.ldBVx x) ∨ Fetches s (.ldMemVx x))

/-! Invariants. -/

/-- R27, R50, R250 (R27 is the spec's own inference; the invariant is the model's, and its canonical memory is log
entry 5, a DESIGN CHOICE): from every state with the invariant (canonical memory, PC at most 0x10FE, stack slots at
most 0x1000, a fault record that names the PC), a step leaves the invariant. -/
def Obligations.StepKeepsTheMachineInvariant : Prop :=
  ∀ s t : State, s.Inv → step s = .next t → t.Inv

/-- R41, with the model's own invariant (canonical memory is log entry 5, a DESIGN CHOICE; the bounds are R27's own
inference): the reset state has the invariant, and low memory is intact in it. -/
def Obligations.ResetHasTheMachineInvariant : Prop := State.reset.Inv ∧ State.reset.lowMemoryIntact

/-- R266, with the model's own invariant (canonical memory is log entry 5, a DESIGN CHOICE; the bounds are R27's own
inference): whatever transactions the host makes, in any order and any number, the invariant is kept. An infinite run
is covered by its finite beginnings (`runSchedule_of_runHost`). -/
def Obligations.EveryHostRunKeepsTheMachineInvariant : Prop :=
  ∀ (trs : List Transaction) (s t : State), s.Inv → runHost trs s = .next t → t.Inv

/-- R51, R56 (the spec's decision D5): with LOW_WRITE_FAULT, no run of transactions ever changes a byte below 0x200:
it keeps the content initialize gave it. The premise Inv is the model's own invariant (log entry 5). -/
def Obligations.NoRunWritesLowMemory : Prop :=
  ∀ (trs : List Transaction) (s t : State), s.Inv → s.params.lowWriteFault = true → s.lowMemoryIntact →
    runHost trs s = .next t → t.lowMemoryIntact

/-! Control flow. -/

/-- R101: 0000 keeps the fetch advance and changes nothing else. -/
def Obligations.NopOnlyAdvances : Prop :=
  encode .nop = 0x0000 ∧
  ∀ s : State, ∃ t, exec .nop s = .next t ∧ t.pc = s.pc + 2 ∧ KeepsAllBut [] s t

/-- R105, R112: 1nnn sets PC to nnn; Bnnn to V0 + nnn, a sum that never wraps. -/
def Obligations.JumpsSetThePc : Prop :=
  ∀ (s : State) (nnn : Imm12),
    encode (.jpNnn nnn) = 0x1#4 ++ nnn ∧ encode (.jpV0Nnn nnn) = 0xB#4 ++ nnn ∧
    (∃ t, exec (.jpNnn nnn) s = .next t ∧ t.pc.toNat = nnn.toNat ∧ KeepsAllBut [] s t) ∧
    (∃ t, exec (.jpV0Nnn nnn) s = .next t ∧ t.pc.toNat = (s.getV 0).toNat + nnn.toNat ∧ KeepsAllBut [] s t)

/-- R106 (the spec's own inference): where the word at a is 1nnn with nnn = a, a step leaves the whole state
unchanged. -/
def Obligations.JumpToSelfIsAFixedPoint : Prop :=
  ∀ (s : State) (nnn : Imm12), nnn.toNat = s.pc.toNat → s.fetch = some (0x1#4 ++ nnn) → step s = .next s

/-- R107: 2nnn pushes the advanced PC into slot SP and jumps; with 16 entries it raises StackOverflow. -/
def Obligations.CallPushesTheReturnAddress : Prop :=
  ∀ (s : State) (nnn : Imm12),
    encode (.callNnn nnn) = 0x2#4 ++ nnn ∧
    (s.sp.val < 16 → ∃ t, exec (.callNnn nnn) s = .next t ∧ t.pc.toNat = nnn.toNat ∧ t.sp.val = s.sp.val + 1 ∧
      (∀ k : Fin 16, t.stack[k] = if k.val = s.sp.val then s.pc + 2 else s.stack[k]) ∧ KeepsAllBut [.stack] s t) ∧
    (s.sp.val = 16 → Raises (.callNnn nnn) s .stackOverflow s.pc.toNat)

/-- R104: 00EE takes PC from the newest entry and leaves the slots as they are; with none it raises StackUnderflow. -/
def Obligations.ReturnPopsThePc : Prop :=
  encode .ret = 0x00EE ∧
  ∀ s : State,
    (∀ k : Fin 16, s.sp.val = k.val + 1 → ∃ t, exec .ret s = .next t ∧ t.pc = s.stack[k] ∧ t.sp.val = k.val ∧
      t.stack = s.stack ∧ KeepsAllBut [.stack] s t) ∧
    (s.sp.val = 0 → Raises .ret s .stackUnderflow s.pc.toNat)

/-- R104: 2nnn and then 00EE restore PC to the instruction after the call, and SP. -/
def Obligations.ReturnUndoesCall : Prop :=
  ∀ (s : State) (nnn : Imm12), s.sp.val < 16 →
    ∃ t u, exec (.callNnn nnn) s = .next t ∧ exec .ret t = .next u ∧ u.pc = s.pc + 2 ∧ u.sp = s.sp ∧
      KeepsAllBut [.stack] s u

/-- R108, R109, R110, R111: the skips on registers: PC is a + 4 when the condition holds, else a + 2. -/
def Obligations.SkipsCompareRegisters : Prop :=
  ∀ (s : State) (x y : Reg) (nn : Byte),
    encode (.seVxNn x nn) = 0x3#4 ++ (BitVec.ofFin x : Nibble) ++ nn ∧
    encode (.sneVxNn x nn) = 0x4#4 ++ (BitVec.ofFin x : Nibble) ++ nn ∧
    encode (.seVxVy x y) = 0x5#4 ++ (BitVec.ofFin x : Nibble) ++ (BitVec.ofFin y : Nibble) ++ 0x0#4 ∧
    encode (.sneVxVy x y) = 0x9#4 ++ (BitVec.ofFin x : Nibble) ++ (BitVec.ofFin y : Nibble) ++ 0x0#4 ∧
    (∃ t, exec (.seVxNn x nn) s = .next t ∧ t.pc = skipPc s (decide (s.getV x = nn)) ∧ KeepsAllBut [] s t) ∧
    (∃ t, exec (.sneVxNn x nn) s = .next t ∧ t.pc = skipPc s (decide (s.getV x ≠ nn)) ∧ KeepsAllBut [] s t) ∧
    (∃ t, exec (.seVxVy x y) s = .next t ∧ t.pc = skipPc s (decide (s.getV x = s.getV y)) ∧ KeepsAllBut [] s t) ∧
    (∃ t, exec (.sneVxVy x y) s = .next t ∧ t.pc = skipPc s (decide (s.getV x ≠ s.getV y)) ∧ KeepsAllBut [] s t)

/-- R221, R222, R227 (the fault is the spec's decision D7): the skips on the key that V[x] names, and
KeyIndexOutOfRange when it names none. -/
def Obligations.SkipsReadTheKeypad : Prop :=
  ∀ (s : State) (x : Reg),
    encode (.skpVx x) = 0xE#4 ++ (BitVec.ofFin x : Nibble) ++ 0x9E#8 ∧
    encode (.sknpVx x) = 0xE#4 ++ (BitVec.ofFin x : Nibble) ++ 0xA1#8 ∧
    (∀ k : Key, (s.getV x).toNat = k.val →
      (∃ t, exec (.skpVx x) s = .next t ∧ t.pc = skipPc s s.key[k] ∧ KeepsAllBut [] s t) ∧
      (∃ t, exec (.sknpVx x) s = .next t ∧ t.pc = skipPc s (!s.key[k]) ∧ KeepsAllBut [] s t)) ∧
    ((s.getV x).toNat > 0xF →
      Raises (.skpVx x) s .keyIndexOutOfRange s.pc.toNat ∧ Raises (.sknpVx x) s .keyIndexOutOfRange s.pc.toNat)

/-! Registers and arithmetic. -/

/-- R142, R143, R144: 6xnn, 7xnn and 8xy0 write V[x] and no flag; 7xnn wraps modulo 256. -/
def Obligations.LoadsAndAddImmediateWriteOneRegister : Prop :=
  ∀ (s : State) (x y : Reg) (nn : Byte),
    encode (.ldVxNn x nn) = 0x6#4 ++ (BitVec.ofFin x : Nibble) ++ nn ∧
    encode (.addVxNn x nn) = 0x7#4 ++ (BitVec.ofFin x : Nibble) ++ nn ∧
    encode (.ldVxVy x y) = 0x8#4 ++ (BitVec.ofFin x : Nibble) ++ (BitVec.ofFin y : Nibble) ++ 0x0#4 ∧
    (∃ t, exec (.ldVxNn x nn) s = .next t ∧ t.getV x = nn ∧ t.pc = s.pc + 2 ∧ KeepsAllBut [.reg x] s t) ∧
    (∃ t, exec (.addVxNn x nn) s = .next t ∧ (t.getV x).toNat = ((s.getV x).toNat + nn.toNat) % 256 ∧
      t.pc = s.pc + 2 ∧ KeepsAllBut [.reg x] s t) ∧
    (∃ t, exec (.ldVxVy x y) s = .next t ∧ t.getV x = s.getV y ∧ t.pc = s.pc + 2 ∧ KeepsAllBut [.reg x] s t)

/-- R145, R146, R147: OR, AND and XOR of V[x] and V[y] into V[x], bit by bit, and no flag. -/
def Obligations.BitwiseOperationsActBitByBit : Prop :=
  ∀ (s : State) (x y : Reg),
    encode (.orVxVy x y) = 0x8#4 ++ (BitVec.ofFin x : Nibble) ++ (BitVec.ofFin y : Nibble) ++ 0x1#4 ∧
    encode (.andVxVy x y) = 0x8#4 ++ (BitVec.ofFin x : Nibble) ++ (BitVec.ofFin y : Nibble) ++ 0x2#4 ∧
    encode (.xorVxVy x y) = 0x8#4 ++ (BitVec.ofFin x : Nibble) ++ (BitVec.ofFin y : Nibble) ++ 0x3#4 ∧
    (∃ t, exec (.orVxVy x y) s = .next t ∧ t.pc = s.pc + 2 ∧ KeepsAllBut [.reg x] s t ∧
      ∀ k, (t.getV x).getLsbD k = ((s.getV x).getLsbD k || (s.getV y).getLsbD k)) ∧
    (∃ t, exec (.andVxVy x y) s = .next t ∧ t.pc = s.pc + 2 ∧ KeepsAllBut [.reg x] s t ∧
      ∀ k, (t.getV x).getLsbD k = ((s.getV x).getLsbD k && (s.getV y).getLsbD k)) ∧
    (∃ t, exec (.xorVxVy x y) s = .next t ∧ t.pc = s.pc + 2 ∧ KeepsAllBut [.reg x] s t ∧
      ∀ k, (t.getV x).getLsbD k = ((s.getV x).getLsbD k != (s.getV y).getLsbD k))

/-- R148: 8xy4 gives the sum modulo 256, and VF = 1 exactly when the sum is at least 256 (VF itself per R141). -/
def Obligations.AddSetsCarry : Prop :=
  ∀ (s : State) (x y : Reg),
    encode (.addVxVy x y) = 0x8#4 ++ (BitVec.ofFin x : Nibble) ++ (BitVec.ofFin y : Nibble) ++ 0x4#4 ∧
    ∃ t sum, exec (.addVxVy x y) s = .next t ∧ BitVec.toNat sum = ((s.getV x).toNat + (s.getV y).toNat) % 256 ∧
      WritesResultAndFlag false s t x sum (if (s.getV x).toNat + (s.getV y).toNat ≥ 256 then 1 else 0)

/-- R149, R151: 8xy5 and 8xy7 give the difference modulo 256, and VF = 0 exactly when a borrow occurs. -/
def Obligations.SubtractionsSetNotBorrow : Prop :=
  ∀ (s : State) (x y : Reg),
    encode (.subVxVy x y) = 0x8#4 ++ (BitVec.ofFin x : Nibble) ++ (BitVec.ofFin y : Nibble) ++ 0x5#4 ∧
    encode (.subnVxVy x y) = 0x8#4 ++ (BitVec.ofFin x : Nibble) ++ (BitVec.ofFin y : Nibble) ++ 0x7#4 ∧
    (∃ t d, exec (.subVxVy x y) s = .next t ∧
      BitVec.toNat d = ((s.getV x).toNat + 256 - (s.getV y).toNat) % 256 ∧
      WritesResultAndFlag false s t x d (if (s.getV x).toNat < (s.getV y).toNat then 0 else 1)) ∧
    (∃ t d, exec (.subnVxVy x y) s = .next t ∧
      BitVec.toNat d = ((s.getV y).toNat + 256 - (s.getV x).toNat) % 256 ∧
      WritesResultAndFlag false s t x d (if (s.getV y).toNat < (s.getV x).toNat then 0 else 1))

/-- R150, R152, R84: 8xy6 and 8xyE shift V[x] by one, whatever y is, and VF takes the bit shifted out. That the terms
hold y is the model's choice (log entry 8). -/
def Obligations.ShiftsMoveOneBitIntoVf : Prop :=
  ∀ (s : State) (x y : Reg),
    encode (.shrVxVy x y) = 0x8#4 ++ (BitVec.ofFin x : Nibble) ++ (BitVec.ofFin y : Nibble) ++ 0x6#4 ∧
    encode (.shlVxVy x y) = 0x8#4 ++ (BitVec.ofFin x : Nibble) ++ (BitVec.ofFin y : Nibble) ++ 0xE#4 ∧
    (∃ t r g, (∀ y', exec (.shrVxVy x y') s = .next t) ∧ BitVec.toNat r = (s.getV x).toNat / 2 ∧
      BitVec.toNat g = (s.getV x).toNat % 2 ∧ WritesResultAndFlag true s t x r g) ∧
    (∃ t r g, (∀ y', exec (.shlVxVy x y') s = .next t) ∧ BitVec.toNat r = (s.getV x).toNat * 2 % 256 ∧
      BitVec.toNat g = (s.getV x).toNat / 128 ∧ WritesResultAndFlag true s t x r g)

/-- R141, log entry 2: with VF as destination under VF_ALIAS = Unconstrained, the five flag-writing instructions run,
and the final VF is the next draw, a byte under no law; nothing else changes but the count of draws (the model's own).
-/
def Obligations.UnconstrainedVfIsADraw : Prop :=
  ∀ (s : State) (y : Reg), s.params.vfAlias = .unconstrained →
    ∀ i ∈ [Instr.addVxVy VF y, .subVxVy VF y, .shrVxVy VF y, .subnVxVy VF y, .shlVxVy VF y],
      ∃ t, exec i s = .next t ∧ t.getV VF = Config.vfDraw s.draws ∧ t.draws = s.draws + 1 ∧ t.pc = s.pc + 2 ∧
        KeepsAllBut [.reg VF, .draws] s t

/-- R153, R265, log entry 2: Cxnn writes a draw masked with nn; the next Cxnn takes the next draw. -/
def Obligations.RandomByteIsMaskedDraw : Prop :=
  ∀ (s : State) (x : Reg) (nn : Byte),
    encode (.rndVxNn x nn) = 0xC#4 ++ (BitVec.ofFin x : Nibble) ++ nn ∧
    ∃ t, exec (.rndVxNn x nn) s = .next t ∧ t.pc = s.pc + 2 ∧ t.draws = s.draws + 1 ∧
      (∀ k, (t.getV x).getLsbD k = ((Config.rand8 s.draws).getLsbD k && nn.getLsbD k)) ∧
      KeepsAllBut [.reg x, .draws] s t

/-! Index register and memory. -/

/-- R181, R182, R183: Annn, Fx1E (wrapping at 2^16, no flag) and Fx29 write I. -/
def Obligations.IndexInstructionsWriteI : Prop :=
  ∀ (s : State) (x : Reg) (nnn : Imm12),
    encode (.ldINnn nnn) = 0xA#4 ++ nnn ∧
    encode (.addIVx x) = 0xF#4 ++ (BitVec.ofFin x : Nibble) ++ 0x1E#8 ∧
    encode (.ldFVx x) = 0xF#4 ++ (BitVec.ofFin x : Nibble) ++ 0x29#8 ∧
    (∃ t, exec (.ldINnn nnn) s = .next t ∧ t.idx.toNat = nnn.toNat ∧ t.pc = s.pc + 2 ∧ KeepsAllBut [.index] s t) ∧
    (∃ t, exec (.addIVx x) s = .next t ∧ t.idx.toNat = (s.idx.toNat + (s.getV x).toNat) % 2 ^ 16 ∧
      t.pc = s.pc + 2 ∧ KeepsAllBut [.index] s t) ∧
    (∃ t, exec (.ldFVx x) s = .next t ∧ t.idx.toNat = (s.getV x).toNat * 5 ∧ t.pc = s.pc + 2 ∧
      KeepsAllBut [.index] s t)

/-- R184 (with the spec's decisions D5, D9): Fx33 stores the three decimal digits of V[x] at I, I + 1 and I + 2, and
no other byte, or raises its fault before any byte is written. Canonical memory is an invariant
(`StepKeepsTheMachineInvariant`). -/
def Obligations.BcdStoresThreeDigits : Prop :=
  ∀ (s : State) (x : Reg),
    encode (.ldBVx x) = 0xF#4 ++ (BitVec.ofFin x : Nibble) ++ 0x33#8 ∧
    (s.memWf → s.idx.toNat + 2 ≤ 0xFFF → (s.params.lowWriteFault = true → 0x200 ≤ s.idx.toNat) →
      ∃ t, exec (.ldBVx x) s = .next t ∧ t.pc = s.pc + 2 ∧
        (t.readByte s.idx.toNat).toNat = (s.getV x).toNat / 100 ∧
        (t.readByte (s.idx.toNat + 1)).toNat = (s.getV x).toNat / 10 % 10 ∧
        (t.readByte (s.idx.toNat + 2)).toNat = (s.getV x).toNat % 10 ∧
        (∀ a, a < s.idx.toNat ∨ s.idx.toNat + 2 < a → t.readByte a = s.readByte a) ∧ KeepsAllBut [.memory] s t) ∧
    (s.idx.toNat + 2 > 0xFFF → Raises (.ldBVx x) s .memWriteOutOfBounds (max s.idx.toNat 0x1000)) ∧
    (s.params.lowWriteFault = true → s.idx.toNat < 0x200 → Raises (.ldBVx x) s .protectedWrite s.idx.toNat)

/-- R185 (with the spec's decisions D5, D9, D15): Fx55 stores V0..Vx at I, I + 1, …, I + x, and no other byte, or
raises its fault before any byte is written. -/
def Obligations.StoreRegistersWritesTheRange : Prop :=
  ∀ (s : State) (x : Reg),
    encode (.ldMemVx x) = 0xF#4 ++ (BitVec.ofFin x : Nibble) ++ 0x55#8 ∧
    (s.memWf → s.idx.toNat + x.val ≤ 0xFFF → (s.params.lowWriteFault = true → 0x200 ≤ s.idx.toNat) →
      ∃ t, exec (.ldMemVx x) s = .next t ∧ t.pc = s.pc + 2 ∧
        (∀ k : Reg, k ≤ x → t.readByte (s.idx.toNat + k.val) = s.getV k) ∧
        (∀ a, a < s.idx.toNat ∨ s.idx.toNat + x.val < a → t.readByte a = s.readByte a) ∧ KeepsAllBut [.memory] s t) ∧
    (s.idx.toNat + x.val > 0xFFF → Raises (.ldMemVx x) s .memWriteOutOfBounds (max s.idx.toNat 0x1000)) ∧
    (s.params.lowWriteFault = true → s.idx.toNat < 0x200 → Raises (.ldMemVx x) s .protectedWrite s.idx.toNat)

/-- R187 (with the spec's decisions D9, D15): Fx65 loads V0..Vx from I, I + 1, …, I + x; any address up to 0xFFF can
be read, and past it the step raises MemReadOutOfBounds at the first bad address. -/
def Obligations.LoadRegistersReadsTheRange : Prop :=
  ∀ (s : State) (x : Reg),
    encode (.ldVxMem x) = 0xF#4 ++ (BitVec.ofFin x : Nibble) ++ 0x65#8 ∧
    (s.idx.toNat + x.val ≤ 0xFFF →
      ∃ t, exec (.ldVxMem x) s = .next t ∧ t.pc = s.pc + 2 ∧
        (∀ k : Reg, t.getV k = if k ≤ x then s.readByte (s.idx.toNat + k.val) else s.getV k) ∧
        KeepsAllBut (((List.finRange 16).filter (· ≤ x)).map Part.reg) s t) ∧
    (s.idx.toNat + x.val > 0xFFF → Raises (.ldVxMem x) s .memReadOutOfBounds (max s.idx.toNat 0x1000))

/-- R244, R245 (the spec's decisions D5, D10): a range past 0xFFF raises the out-of-bounds fault at its first bad
address, whatever else the range holds, and only such a range does; ProtectedWrite is never raised with
LOW_WRITE_FAULT false, and with it true exactly for a writing range that lies inside memory and begins below 0x200. -/
def Obligations.RangeFaultsNameTheFirstBadAddress : Prop :=
  ∀ (s : State) (i : Instr) (isWrite : Bool) (len : Nat), s.fault = none → accessOf i = some (isWrite, len) →
    (∀ a, Raises i s (if isWrite then .memWriteOutOfBounds else .memReadOutOfBounds) a ↔
      len ≠ 0 ∧ s.idx.toNat + len - 1 > 0xFFF ∧ IsFirst (· > 0xFFF) s.idx.toNat len a) ∧
    (∀ a, Raises i s .protectedWrite a ↔
      isWrite = true ∧ s.params.lowWriteFault = true ∧ s.idx.toNat + len - 1 ≤ 0xFFF ∧ s.idx.toNat < 0x200 ∧
        a = s.idx.toNat)

/-- R188, R55, R56 (the spec's decisions D5, D9, D10, D11): CheckRange passes exactly when every byte of the range
passes its own check, and otherwise reports the first bad address, an out-of-bounds one before any protected one. -/
def Obligations.CheckRangeFindsTheFirstFailingByte : Prop :=
  ∀ (low isWrite : Bool) (base len : Nat),
    (checkRange low isWrite base len = none ↔ ∀ a, base ≤ a → a < base + len →
      (if isWrite then memWriteFault low a else memReadFault a) = none) ∧
    (∀ c a, checkRange low isWrite base len = some (c, a) →
      (if isWrite then memWriteFault low a else memReadFault a) = some c ∧
      (c = .protectedWrite → IsFirst (· < 0x200) base len a ∧ ∀ b, base ≤ b → b < base + len → b ≤ 0xFFF) ∧
      (c ≠ .protectedWrite → IsFirst (· > 0xFFF) base len a))

/-- R186 (the spec's decision D15): Fx33, Fx55, Fx65 and Dxyn do not change I, and Fx55 then Fx65 over the same range
with the same I reproduce the registers, whatever the registers held in between. -/
def Obligations.StoreThenLoadReproducesRegisters : Prop :=
  (∀ (s t : State) (x y : Reg) (n : Fin 16), ∀ i ∈ [Instr.ldBVx x, .ldMemVx x, .ldVxMem x, .drwVxVyN x y n],
    exec i s = .next t → t.idx = s.idx) ∧
  (∀ (s t u : State) (x : Reg), s.memWf → exec (.ldMemVx x) s = .next t → t.fault = none →
    u.idx = t.idx → (∀ a, u.readByte a = t.readByte a) →
      ∃ w, exec (.ldVxMem x) u = .next w ∧ ∀ k : Reg, k ≤ x → w.getV k = s.getV k)

/-- R66 (the spec's decision D25): a byte written by Fx33, Fx55 or load is seen by the next fetch of it. -/
def Obligations.StoredBytesAreFetched : Prop :=
  (∀ (s t : State) (x k : Reg) (pc : Word), s.memWf → exec (.ldMemVx x) s = .next t →
    t.fault = none → k.val + 1 ≤ x.val → pc.toNat = s.idx.toNat + k.val →
      State.fetch { t with pc := pc } = some (s.getV k ++ s.getV (k + 1))) ∧
  (∀ (s t : State) (x : Reg), s.memWf → exec (.ldBVx x) s = .next t → t.fault = none →
      State.fetch { t with pc := s.idx } =
        some (BitVec.ofNat 8 ((s.getV x).toNat / 100) ++ BitVec.ofNat 8 ((s.getV x).toNat / 10 % 10))) ∧
  (∀ (s t : State) (bytes : List Byte) (k : Nat) (pc : Word) (h : k + 1 < bytes.length), s.memWf →
    transact (.load bytes) s = .next t → t.fault = none → pc.toNat = 0x200 + k →
      State.fetch { t with pc := pc } = some (bytes[k] ++ bytes[k + 1]))

/-! Framebuffer. -/

/-- R201: 00E0 turns every pixel off and changes nothing else. -/
def Obligations.ClearTurnsEveryPixelOff : Prop :=
  encode .cls = 0x00E0 ∧
  ∀ s : State, ∃ t, exec .cls s = .next t ∧ t.pc = s.pc + 2 ∧ (∀ p, t.fb.pixel p = false) ∧
    KeepsAllBut [.screen] s t

/-- R202, R203, R204 (with the spec's decisions D4, D9; both values of DRAW_MODE): Dxyn updates exactly the pixels
under set sprite bits, and VF says whether one of them was on before; a read past 0xFFF faults before any pixel
changes. -/
def Obligations.DrawUpdatesCoveredPixels : Prop :=
  ∀ (s : State) (x y : Reg) (n : Fin 16),
    encode (.drwVxVyN x y n) =
      0xD#4 ++ (BitVec.ofFin x : Nibble) ++ (BitVec.ofFin y : Nibble) ++ (BitVec.ofFin n : Nibble) ∧
    (n.val = 0 ∨ s.idx.toNat + n.val - 1 ≤ 0xFFF →
      ∃ t, exec (.drwVxVyN x y n) s = .next t ∧ t.pc = s.pc + 2 ∧
        (∀ p, Covered s x y n.val p →
          (s.params.drawMode = .forceOn → t.fb.pixel p = true) ∧
          (s.params.drawMode = .xor → t.fb.pixel p = !s.fb.pixel p)) ∧
        (∀ p, ¬ Covered s x y n.val p → t.fb.pixel p = s.fb.pixel p) ∧
        ((∃ p, Covered s x y n.val p ∧ s.fb.pixel p = true) → t.getV VF = 1) ∧
        ((∀ p, Covered s x y n.val p → s.fb.pixel p = false) → t.getV VF = 0) ∧
        KeepsAllBut [.reg VF, .screen] s t) ∧
    (1 ≤ n.val → s.idx.toNat + n.val - 1 > 0xFFF →
      Raises (.drwVxVyN x y n) s .memReadOutOfBounds (max s.idx.toNat 0x1000))

/-- R205 (the spec's own inference): the collision flag, and every other register, is the same under both values of
DRAW_MODE. -/
def Obligations.CollisionDoesNotDependOnDrawMode : Prop :=
  ∀ (s t u : State) (x y : Reg) (n : Fin 16) (mode : DrawMode),
    exec (.drwVxVyN x y n) s = .next t →
    exec (.drwVxVyN x y n) { s with params := { s.params with drawMode := mode } } = .next u →
    ∀ r, u.getV r = t.getV r

/-- R206 (the spec's own inference): Dxy0 draws nothing, cannot fault whatever I holds, and clears VF. -/
def Obligations.DrawOfNoRowsOnlyClearsVf : Prop :=
  ∀ (s : State) (x y : Reg), ∃ t, exec (.drwVxVyN x y 0) s = .next t ∧ t.pc = s.pc + 2 ∧ t.getV VF = 0 ∧
    KeepsAllBut [.reg VF] s t

/-- R204: under Xor a second draw of the same sprite at the same place erases the first (coordinates other than VF,
which the first draw overwrites). -/
def Obligations.XorDrawTwiceRestoresTheScreen : Prop :=
  ∀ (s t u : State) (x y : Reg) (n : Fin 16), s.params.drawMode = .xor → x ≠ VF → y ≠ VF →
    exec (.drwVxVyN x y n) s = .next t → t.fault = none → exec (.drwVxVyN x y n) t = .next u → u.fb = s.fb

/-- R207 (the spec's own inference): within one Dxyn, distinct (row, col) land on distinct pixels. -/
def Obligations.SpriteBitsLandOnDistinctPixels : Prop :=
  ∀ (px0 py0 : Byte) (row row' col col' : Nat), row < 15 → row' < 15 → col < 8 → col' < 8 →
    spriteDest px0 py0 row col = spriteDest px0 py0 row' col' → row = row' ∧ col = col'

/-! Keypad and timers. -/

/-- R223, R225, R226: Fx07 reads DT, Fx15 writes DT, Fx18 writes ST. -/
def Obligations.TimerInstructionsMoveOneByte : Prop :=
  ∀ (s : State) (x : Reg),
    encode (.ldVxDT x) = 0xF#4 ++ (BitVec.ofFin x : Nibble) ++ 0x07#8 ∧
    encode (.ldDTVx x) = 0xF#4 ++ (BitVec.ofFin x : Nibble) ++ 0x15#8 ∧
    encode (.ldSTVx x) = 0xF#4 ++ (BitVec.ofFin x : Nibble) ++ 0x18#8 ∧
    (∃ t, exec (.ldVxDT x) s = .next t ∧ t.getV x = s.dt ∧ t.pc = s.pc + 2 ∧ KeepsAllBut [.reg x] s t) ∧
    (∃ t, exec (.ldDTVx x) s = .next t ∧ t.dt = s.getV x ∧ t.pc = s.pc + 2 ∧ KeepsAllBut [.delay] s t) ∧
    (∃ t, exec (.ldSTVx x) s = .next t ∧ t.st = s.getV x ∧ t.pc = s.pc + 2 ∧ KeepsAllBut [.sound] s t)

/-- R224: Fx0A takes the lowest pressed key into V[x]; with no key pressed the whole state is unchanged. -/
def Obligations.KeyWaitTakesTheLowestPressedKey : Prop :=
  ∀ (s : State) (x : Reg),
    encode (.ldVxK x) = 0xF#4 ++ (BitVec.ofFin x : Nibble) ++ 0x0A#8 ∧
    (∀ k : Key, s.key[k] = true → (∀ j : Key, j < k → s.key[j] = false) →
      ∃ t, exec (.ldVxK x) s = .next t ∧ (t.getV x).toNat = k.val ∧ t.pc = s.pc + 2 ∧ KeepsAllBut [.reg x] s t) ∧
    ((∀ k : Key, s.key[k] = false) → exec (.ldVxK x) s = .next s)

/-! Host transactions. -/

/-- R261 (with the spec's decision D18): tick_timers takes one from each timer that is not zero, tells whether ST went
1→0, and changes nothing else; on a halted machine it changes nothing. -/
def Obligations.TickDecrementsNonzeroTimers : Prop :=
  ∀ s : State, (s.fault ≠ none → transact .tickTimers s = .next s) ∧ (s.fault = none →
    ∃ t, transact .tickTimers s = .next t ∧ t.dt.toNat = s.dt.toNat - 1 ∧ t.st.toNat = s.st.toNat - 1 ∧
      respond .tickTimers s t = .soundEnd (some (decide (s.st = 1))) ∧ t.pc = s.pc ∧
      KeepsAllBut [.delay, .sound] s t)

/-- R262 (with the spec's decision D20): set_key sets one flag, an index above 15 raises HostKeyIndexOutOfRange, and
on a halted machine it changes nothing. -/
def Obligations.SetKeyWritesOneFlag : Prop :=
  ∀ (s : State) (pressed : Bool),
    (∀ index, s.fault ≠ none → transact (.setKey index pressed) s = .next s) ∧
    (∀ k : Key, s.fault = none → ∃ t, transact (.setKey k.val pressed) s = .next t ∧
      (∀ j : Key, t.key[j] = if j = k then pressed else s.key[j]) ∧ t = { s with key := t.key }) ∧
    (∀ index, s.fault = none → index > 15 → transact (.setKey index pressed) s =
      .next { s with fault := some ⟨.hostKeyIndexOutOfRange, none, s.pc, index⟩ })

/-- R282 (with the spec's decisions D9, D21): load copies the image to 0x200 and changes nothing else; an image that
does not fit raises LoadTooLarge with no byte written; on a halted machine it changes nothing. -/
def Obligations.LoadCopiesTheImage : Prop :=
  ∀ (s : State) (bytes : List Byte),
    (s.fault ≠ none → transact (.load bytes) s = .next s) ∧
    (s.fault = none → s.memWf → 0x200 + bytes.length ≤ 4096 → ∃ t, transact (.load bytes) s = .next t ∧
      (∀ k (h : k < bytes.length), t.readByte (0x200 + k) = bytes[k]) ∧
      (∀ a, a < 0x200 ∨ 0x200 + bytes.length ≤ a → t.readByte a = s.readByte a) ∧ t = { s with mem := t.mem }) ∧
    (s.fault = none → 0x200 + bytes.length > 4096 → transact (.load bytes) s =
      .next { s with fault := some ⟨.loadTooLarge, none, s.pc, 0x200 + bytes.length⟩ })

/-- R41, R280, R281 (FAULT = None is the spec's decision D8, a fresh start D2): from every state, halted or not,
initialize leaves the reset values, and a second one changes nothing. -/
def Obligations.InitializeLeavesTheResetValues : Prop :=
  ∀ s : State, ∃ t, transact .reset s = .next t ∧
    (∀ a (h : a < 80), t.readByte a = s.params.font[a]) ∧ (∀ a, 80 ≤ a → a < 4096 → t.readByte a = 0) ∧
    (∀ r, t.getV r = 0) ∧ t.idx = 0 ∧ t.pc = 0x200 ∧ (∀ k : Fin 16, t.stack[k] = 0) ∧ t.sp = 0 ∧ t.dt = 0 ∧ t.st = 0 ∧
    (∀ p, t.fb.pixel p = false) ∧ (∀ k : Key, t.key[k] = false) ∧ t.fault = none ∧
    transact .reset t = .next t

/-- R283: after initialize and load of an image that begins with i, the first step runs i, at 0x200. -/
def Obligations.BootRunsTheFirstLoadedInstruction : Prop :=
  ∀ (s : State) (i : Instr) (rest : List Byte), 2 + rest.length ≤ 3584 →
    ∃ t, runHost [.reset, .load (encodeBytes i ++ rest)] s = .next t ∧ t.pc = 0x200 ∧ t.fault = none ∧
      step t = exec i t

/-- R50, the model's own (log entry 5): canonical memories that read alike are the same memory. -/
def Obligations.CanonicalMemoriesThatReadAlikeAreEqual : Prop :=
  ∀ (font : Vector Byte 80) (m m' : Memory), m.wf font → m'.wf font →
    (∀ a, m.read font a = m'.read font a) → m = m'
end

