-- ==== Sys2Proof/Laws/Decode.lean ====
section
/-! SUPPORT. The laws of words and nibbles that decoding and encoding rest on. -/

namespace Sys2Proof
variable (a b c d a' b' c' d' : Nibble)

/-- One bit of a word, by its nibble. -/
theorem getLsbD_wordOf (k : Nat) : (wordOf a b c d).getLsbD k =
    if k < 4 then d.getLsbD k else if k < 8 then c.getLsbD (k - 4) else if k < 12 then b.getLsbD (k - 8) else a.getLsbD (k - 12) := by
  simp only [wordOf, BitVec.getLsbD_append, Nat.sub_sub]
  split
  · rfl
  · by_cases h8 : k < 8
    · simp [h8, show k - 4 < 4 by omega]
    · by_cases h12 : k < 12
      · simp [h8, h12, show ¬ k - 4 < 4 by omega, show k - 8 < 4 by omega]
      · simp [h8, h12, show ¬ k - 4 < 4 by omega, show ¬ k - 8 < 4 by omega]

@[simp] theorem nibble1_wordOf : nibble1 (wordOf a b c d) = a := by
  apply BitVec.eq_of_getLsbD_eq; intro k hk
  simp [nibble1, getLsbD_wordOf, hk, show ¬ 12 + k < 4 by omega, show ¬ 12 + k < 8 by omega]
@[simp] theorem nibble2_wordOf : nibble2 (wordOf a b c d) = b := by
  apply BitVec.eq_of_getLsbD_eq; intro k hk
  simp [nibble2, getLsbD_wordOf, hk, show ¬ 8 + k < 4 by omega, show 8 + k < 12 by omega]
@[simp] theorem nibble3_wordOf : nibble3 (wordOf a b c d) = c := by
  apply BitVec.eq_of_getLsbD_eq; intro k hk
  simp [nibble3, getLsbD_wordOf, hk, show 4 + k < 8 by omega]
@[simp] theorem nibble4_wordOf : nibble4 (wordOf a b c d) = d := by
  apply BitVec.eq_of_getLsbD_eq; intro k hk
  simp [nibble4, getLsbD_wordOf, hk]

theorem wordOf_nibbles (w : Word) : wordOf (nibble1 w) (nibble2 w) (nibble3 w) (nibble4 w) = w := by
  apply BitVec.eq_of_getLsbD_eq; intro k hk
  simp only [getLsbD_wordOf, nibble1, nibble2, nibble3, nibble4, BitVec.getLsbD_extractLsb']
  split
  · simp [*]
  · split
    · simp [show k - 4 < 4 by omega, show 4 + (k - 4) = k by omega]
    · split
      · simp [show k - 8 < 4 by omega, show 8 + (k - 8) = k by omega]
      · simp [show k - 12 < 4 by omega, show 12 + (k - 12) = k by omega]

/-- A masked word, nibble by nibble. -/
theorem wordOf_and : wordOf a b c d &&& wordOf a' b' c' d' = wordOf (a &&& a') (b &&& b') (c &&& c') (d &&& d') := by
  apply BitVec.eq_of_getLsbD_eq; intro k hk
  simp only [BitVec.getLsbD_and, getLsbD_wordOf]
  split <;> try split
  all_goals (try split)
  all_goals rfl

theorem wordOf_inj {a b c d a' b' c' d' : Nibble} : wordOf a b c d = wordOf a' b' c' d' ↔ a = a' ∧ b = b' ∧ c = c' ∧ d = d' := by
  constructor
  · intro h
    exact ⟨by simpa using congrArg nibble1 h, by simpa using congrArg nibble2 h, by simpa using congrArg nibble3 h,
      by simpa using congrArg nibble4 h⟩
  · rintro ⟨rfl, rfl, rfl, rfl⟩; rfl

/-- A row selects a word when its mask and match agree with the word's nibbles. -/
theorem selects_iff (r : OpcodeRow) (w : Word) : r.selects w = true ↔ w &&& r.mask = r.bits := by simp [OpcodeRow.selects]

theorem getLsbD_immNn (k : Nat) : (immNn c d).getLsbD k = if k < 4 then d.getLsbD k else c.getLsbD (k - 4) := by
  simp only [immNn, BitVec.getLsbD_append]

theorem getLsbD_immNnn (k : Nat) : (immNnn b c d).getLsbD k =
    if k < 4 then d.getLsbD k else if k < 8 then c.getLsbD (k - 4) else b.getLsbD (k - 8) := by
  simp only [immNnn, BitVec.getLsbD_append, Nat.sub_sub]
  split
  · rfl
  · by_cases h8 : k < 8
    · simp [h8, show k - 4 < 4 by omega]
    · simp [h8, show ¬ k - 4 < 4 by omega]

@[simp] theorem nibble_and_F : a &&& 0xF#4 = a := by revert a; decide

/-- A row selects a word when mask and match agree with each nibble (R77, R80). -/
theorem selects_wordOf (r : OpcodeRow) : r.selects (wordOf a b c d) = true ↔
    a &&& nibble1 r.mask = nibble1 r.bits ∧ b &&& nibble2 r.mask = nibble2 r.bits ∧
      c &&& nibble3 r.mask = nibble3 r.bits ∧ d &&& nibble4 r.mask = nibble4 r.bits := by
  rw [selects_iff, ← wordOf_nibbles r.mask, ← wordOf_nibbles r.bits, wordOf_and, wordOf_inj]
  simp

@[simp] theorem immNn_extract (nn : Byte) : immNn (nn.extractLsb' 4 4) (nn.extractLsb' 0 4) = nn := by
  apply BitVec.eq_of_getLsbD_eq; intro k hk
  simp only [getLsbD_immNn, BitVec.getLsbD_extractLsb']
  split
  · simp [*]
  · simp [show k - 4 < 4 by omega, show 4 + (k - 4) = k by omega]

@[simp] theorem immNnn_extract (n : Imm12) :
    immNnn (n.extractLsb' 8 4) (n.extractLsb' 4 4) (n.extractLsb' 0 4) = n := by
  apply BitVec.eq_of_getLsbD_eq; intro k hk
  simp only [getLsbD_immNnn, BitVec.getLsbD_extractLsb']
  split
  · simp [*]
  · split
    · simp [show k - 4 < 4 by omega, show 4 + (k - 4) = k by omega]
    · simp [show k - 8 < 4 by omega, show 8 + (k - 8) = k by omega]

@[simp] theorem extract_immNn_high : (immNn c d).extractLsb' 4 4 = c := by
  apply BitVec.eq_of_getLsbD_eq; intro k hk
  simp only [BitVec.getLsbD_extractLsb', getLsbD_immNn]
  simp [hk]

@[simp] theorem extract_immNn_low : (immNn c d).extractLsb' 0 4 = d := by
  apply BitVec.eq_of_getLsbD_eq; intro k hk
  simp only [BitVec.getLsbD_extractLsb', getLsbD_immNn]
  simp [hk]

@[simp] theorem extract_immNnn_high : (immNnn b c d).extractLsb' 8 4 = b := by
  apply BitVec.eq_of_getLsbD_eq; intro k hk
  simp only [BitVec.getLsbD_extractLsb', getLsbD_immNnn]
  simp [hk, show ¬ 8 + k < 4 by omega]

@[simp] theorem extract_immNnn_mid : (immNnn b c d).extractLsb' 4 4 = c := by
  apply BitVec.eq_of_getLsbD_eq; intro k hk
  simp only [BitVec.getLsbD_extractLsb', getLsbD_immNnn]
  simp [hk, show 4 + k < 8 by omega]

@[simp] theorem extract_immNnn_low : (immNnn b c d).extractLsb' 0 4 = d := by
  apply BitVec.eq_of_getLsbD_eq; intro k hk
  simp only [BitVec.getLsbD_extractLsb', getLsbD_immNnn]
  simp [hk]

@[simp] theorem nibbleNumber_ofFin (x : Fin 16) : nibbleNumber (BitVec.ofFin x) = x := rfl
@[simp] theorem ofFin_nibbleNumber : (BitVec.ofFin (nibbleNumber a) : Nibble) = a := rfl

/-- The bytes of a word, joined again. -/
@[simp] theorem bigEndian_bytes (w : Word) : bigEndian (highByte w) (lowByte w) = w := by
  apply BitVec.eq_of_getLsbD_eq; intro k hk
  simp only [bigEndian, highByte, lowByte, BitVec.getLsbD_append, BitVec.getLsbD_extractLsb']
  split
  · simp [*]
  · simp [show k - 8 < 8 by omega, show 8 + (k - 8) = k by omega]
end Sys2Proof
end

