-- ==== Sys2Proof/Laws/State.lean ====
section
/-! SUPPORT. What each named update of the state leaves in each field, one lemma a field, so that no proof unfolds a
record update. -/

namespace Sys2Proof.Machine

variable (s : State)

/-! setV -/

@[simp] theorem State.setV_mem (x : Reg) (b : Byte) : (s.setV x b).mem = s.mem := rfl
@[simp] theorem State.setV_v (x : Reg) (b : Byte) : (s.setV x b).v = s.v.set x.val b x.isLt := rfl
@[simp] theorem State.setV_idx (x : Reg) (b : Byte) : (s.setV x b).idx = s.idx := rfl
@[simp] theorem State.setV_pc (x : Reg) (b : Byte) : (s.setV x b).pc = s.pc := rfl
@[simp] theorem State.setV_stack (x : Reg) (b : Byte) : (s.setV x b).stack = s.stack := rfl
@[simp] theorem State.setV_sp (x : Reg) (b : Byte) : (s.setV x b).sp = s.sp := rfl
@[simp] theorem State.setV_dt (x : Reg) (b : Byte) : (s.setV x b).dt = s.dt := rfl
@[simp] theorem State.setV_st (x : Reg) (b : Byte) : (s.setV x b).st = s.st := rfl
@[simp] theorem State.setV_fb (x : Reg) (b : Byte) : (s.setV x b).fb = s.fb := rfl
@[simp] theorem State.setV_key (x : Reg) (b : Byte) : (s.setV x b).key = s.key := rfl
@[simp] theorem State.setV_fault (x : Reg) (b : Byte) : (s.setV x b).fault = s.fault := rfl
@[simp] theorem State.setV_params (x : Reg) (b : Byte) : (s.setV x b).params = s.params := rfl
@[simp] theorem State.setV_draws (x : Reg) (b : Byte) : (s.setV x b).draws = s.draws := rfl

/-! setI -/

@[simp] theorem State.setI_mem (w : Word) : (s.setI w).mem = s.mem := rfl
@[simp] theorem State.setI_v (w : Word) : (s.setI w).v = s.v := rfl
@[simp] theorem State.setI_idx (w : Word) : (s.setI w).idx = w := rfl
@[simp] theorem State.setI_pc (w : Word) : (s.setI w).pc = s.pc := rfl
@[simp] theorem State.setI_stack (w : Word) : (s.setI w).stack = s.stack := rfl
@[simp] theorem State.setI_sp (w : Word) : (s.setI w).sp = s.sp := rfl
@[simp] theorem State.setI_dt (w : Word) : (s.setI w).dt = s.dt := rfl
@[simp] theorem State.setI_st (w : Word) : (s.setI w).st = s.st := rfl
@[simp] theorem State.setI_fb (w : Word) : (s.setI w).fb = s.fb := rfl
@[simp] theorem State.setI_key (w : Word) : (s.setI w).key = s.key := rfl
@[simp] theorem State.setI_fault (w : Word) : (s.setI w).fault = s.fault := rfl
@[simp] theorem State.setI_params (w : Word) : (s.setI w).params = s.params := rfl
@[simp] theorem State.setI_draws (w : Word) : (s.setI w).draws = s.draws := rfl

/-! setPC -/

@[simp] theorem State.setPC_mem (w : Word) : (s.setPC w).mem = s.mem := rfl
@[simp] theorem State.setPC_v (w : Word) : (s.setPC w).v = s.v := rfl
@[simp] theorem State.setPC_idx (w : Word) : (s.setPC w).idx = s.idx := rfl
@[simp] theorem State.setPC_pc (w : Word) : (s.setPC w).pc = w := rfl
@[simp] theorem State.setPC_stack (w : Word) : (s.setPC w).stack = s.stack := rfl
@[simp] theorem State.setPC_sp (w : Word) : (s.setPC w).sp = s.sp := rfl
@[simp] theorem State.setPC_dt (w : Word) : (s.setPC w).dt = s.dt := rfl
@[simp] theorem State.setPC_st (w : Word) : (s.setPC w).st = s.st := rfl
@[simp] theorem State.setPC_fb (w : Word) : (s.setPC w).fb = s.fb := rfl
@[simp] theorem State.setPC_key (w : Word) : (s.setPC w).key = s.key := rfl
@[simp] theorem State.setPC_fault (w : Word) : (s.setPC w).fault = s.fault := rfl
@[simp] theorem State.setPC_params (w : Word) : (s.setPC w).params = s.params := rfl
@[simp] theorem State.setPC_draws (w : Word) : (s.setPC w).draws = s.draws := rfl

/-! advance -/

@[simp] theorem State.advance_mem : (s.advance).mem = s.mem := rfl
@[simp] theorem State.advance_v : (s.advance).v = s.v := rfl
@[simp] theorem State.advance_idx : (s.advance).idx = s.idx := rfl
@[simp] theorem State.advance_pc : (s.advance).pc = s.pc + 2 := rfl
@[simp] theorem State.advance_stack : (s.advance).stack = s.stack := rfl
@[simp] theorem State.advance_sp : (s.advance).sp = s.sp := rfl
@[simp] theorem State.advance_dt : (s.advance).dt = s.dt := rfl
@[simp] theorem State.advance_st : (s.advance).st = s.st := rfl
@[simp] theorem State.advance_fb : (s.advance).fb = s.fb := rfl
@[simp] theorem State.advance_key : (s.advance).key = s.key := rfl
@[simp] theorem State.advance_fault : (s.advance).fault = s.fault := rfl
@[simp] theorem State.advance_params : (s.advance).params = s.params := rfl
@[simp] theorem State.advance_draws : (s.advance).draws = s.draws := rfl

/-! rewind -/

@[simp] theorem State.rewind_mem : (s.rewind).mem = s.mem := rfl
@[simp] theorem State.rewind_v : (s.rewind).v = s.v := rfl
@[simp] theorem State.rewind_idx : (s.rewind).idx = s.idx := rfl
@[simp] theorem State.rewind_pc : (s.rewind).pc = s.pc - 2 := rfl
@[simp] theorem State.rewind_stack : (s.rewind).stack = s.stack := rfl
@[simp] theorem State.rewind_sp : (s.rewind).sp = s.sp := rfl
@[simp] theorem State.rewind_dt : (s.rewind).dt = s.dt := rfl
@[simp] theorem State.rewind_st : (s.rewind).st = s.st := rfl
@[simp] theorem State.rewind_fb : (s.rewind).fb = s.fb := rfl
@[simp] theorem State.rewind_key : (s.rewind).key = s.key := rfl
@[simp] theorem State.rewind_fault : (s.rewind).fault = s.fault := rfl
@[simp] theorem State.rewind_params : (s.rewind).params = s.params := rfl
@[simp] theorem State.rewind_draws : (s.rewind).draws = s.draws := rfl

/-! writeByte -/

@[simp] theorem State.writeByte_mem (a : Nat) (b : Byte) : (s.writeByte a b).mem = s.mem.write s.params.font a b := rfl
@[simp] theorem State.writeByte_v (a : Nat) (b : Byte) : (s.writeByte a b).v = s.v := rfl
@[simp] theorem State.writeByte_idx (a : Nat) (b : Byte) : (s.writeByte a b).idx = s.idx := rfl
@[simp] theorem State.writeByte_pc (a : Nat) (b : Byte) : (s.writeByte a b).pc = s.pc := rfl
@[simp] theorem State.writeByte_stack (a : Nat) (b : Byte) : (s.writeByte a b).stack = s.stack := rfl
@[simp] theorem State.writeByte_sp (a : Nat) (b : Byte) : (s.writeByte a b).sp = s.sp := rfl
@[simp] theorem State.writeByte_dt (a : Nat) (b : Byte) : (s.writeByte a b).dt = s.dt := rfl
@[simp] theorem State.writeByte_st (a : Nat) (b : Byte) : (s.writeByte a b).st = s.st := rfl
@[simp] theorem State.writeByte_fb (a : Nat) (b : Byte) : (s.writeByte a b).fb = s.fb := rfl
@[simp] theorem State.writeByte_key (a : Nat) (b : Byte) : (s.writeByte a b).key = s.key := rfl
@[simp] theorem State.writeByte_fault (a : Nat) (b : Byte) : (s.writeByte a b).fault = s.fault := rfl
@[simp] theorem State.writeByte_params (a : Nat) (b : Byte) : (s.writeByte a b).params = s.params := rfl
@[simp] theorem State.writeByte_draws (a : Nat) (b : Byte) : (s.writeByte a b).draws = s.draws := rfl

/-! withFault -/

@[simp] theorem State.withFault_mem (c : Fault) (o : Option Word) (a : Nat) : (s.withFault c o a).mem = s.mem := rfl
@[simp] theorem State.withFault_v (c : Fault) (o : Option Word) (a : Nat) : (s.withFault c o a).v = s.v := rfl
@[simp] theorem State.withFault_idx (c : Fault) (o : Option Word) (a : Nat) : (s.withFault c o a).idx = s.idx := rfl
@[simp] theorem State.withFault_pc (c : Fault) (o : Option Word) (a : Nat) : (s.withFault c o a).pc = s.pc := rfl
@[simp] theorem State.withFault_stack (c : Fault) (o : Option Word) (a : Nat) : (s.withFault c o a).stack = s.stack := rfl
@[simp] theorem State.withFault_sp (c : Fault) (o : Option Word) (a : Nat) : (s.withFault c o a).sp = s.sp := rfl
@[simp] theorem State.withFault_dt (c : Fault) (o : Option Word) (a : Nat) : (s.withFault c o a).dt = s.dt := rfl
@[simp] theorem State.withFault_st (c : Fault) (o : Option Word) (a : Nat) : (s.withFault c o a).st = s.st := rfl
@[simp] theorem State.withFault_fb (c : Fault) (o : Option Word) (a : Nat) : (s.withFault c o a).fb = s.fb := rfl
@[simp] theorem State.withFault_key (c : Fault) (o : Option Word) (a : Nat) : (s.withFault c o a).key = s.key := rfl
@[simp] theorem State.withFault_fault (c : Fault) (o : Option Word) (a : Nat) : (s.withFault c o a).fault = some ⟨c, o, s.pc, a⟩ := rfl
@[simp] theorem State.withFault_params (c : Fault) (o : Option Word) (a : Nat) : (s.withFault c o a).params = s.params := rfl
@[simp] theorem State.withFault_draws (c : Fault) (o : Option Word) (a : Nat) : (s.withFault c o a).draws = s.draws := rfl

/-! nextDraw -/

@[simp] theorem State.nextDraw_mem : (s.nextDraw).mem = s.mem := rfl
@[simp] theorem State.nextDraw_v : (s.nextDraw).v = s.v := rfl
@[simp] theorem State.nextDraw_idx : (s.nextDraw).idx = s.idx := rfl
@[simp] theorem State.nextDraw_pc : (s.nextDraw).pc = s.pc := rfl
@[simp] theorem State.nextDraw_stack : (s.nextDraw).stack = s.stack := rfl
@[simp] theorem State.nextDraw_sp : (s.nextDraw).sp = s.sp := rfl
@[simp] theorem State.nextDraw_dt : (s.nextDraw).dt = s.dt := rfl
@[simp] theorem State.nextDraw_st : (s.nextDraw).st = s.st := rfl
@[simp] theorem State.nextDraw_fb : (s.nextDraw).fb = s.fb := rfl
@[simp] theorem State.nextDraw_key : (s.nextDraw).key = s.key := rfl
@[simp] theorem State.nextDraw_fault : (s.nextDraw).fault = s.fault := rfl
@[simp] theorem State.nextDraw_params : (s.nextDraw).params = s.params := rfl
@[simp] theorem State.nextDraw_draws : (s.nextDraw).draws = s.draws + 1 := rfl

/-! skipIf -/

@[simp] theorem State.skipIf_mem (c : Bool) : (s.skipIf c).mem = s.mem := by
  unfold State.skipIf; split <;> rfl
@[simp] theorem State.skipIf_v (c : Bool) : (s.skipIf c).v = s.v := by
  unfold State.skipIf; split <;> rfl
@[simp] theorem State.skipIf_idx (c : Bool) : (s.skipIf c).idx = s.idx := by
  unfold State.skipIf; split <;> rfl
@[simp] theorem State.skipIf_stack (c : Bool) : (s.skipIf c).stack = s.stack := by
  unfold State.skipIf; split <;> rfl
@[simp] theorem State.skipIf_sp (c : Bool) : (s.skipIf c).sp = s.sp := by
  unfold State.skipIf; split <;> rfl
@[simp] theorem State.skipIf_dt (c : Bool) : (s.skipIf c).dt = s.dt := by
  unfold State.skipIf; split <;> rfl
@[simp] theorem State.skipIf_st (c : Bool) : (s.skipIf c).st = s.st := by
  unfold State.skipIf; split <;> rfl
@[simp] theorem State.skipIf_fb (c : Bool) : (s.skipIf c).fb = s.fb := by
  unfold State.skipIf; split <;> rfl
@[simp] theorem State.skipIf_key (c : Bool) : (s.skipIf c).key = s.key := by
  unfold State.skipIf; split <;> rfl
@[simp] theorem State.skipIf_fault (c : Bool) : (s.skipIf c).fault = s.fault := by
  unfold State.skipIf; split <;> rfl
@[simp] theorem State.skipIf_params (c : Bool) : (s.skipIf c).params = s.params := by
  unfold State.skipIf; split <;> rfl
@[simp] theorem State.skipIf_draws (c : Bool) : (s.skipIf c).draws = s.draws := by
  unfold State.skipIf; split <;> rfl

@[simp] theorem State.skipIf_pc (c : Bool) : (s.skipIf c).pc = if c then s.pc + 2 else s.pc := by
  unfold State.skipIf; split <;> rfl

/-! push -/

@[simp] theorem State.push_mem (w : Word) : (s.push w).mem = s.mem := by
  unfold State.push; split <;> rfl
@[simp] theorem State.push_v (w : Word) : (s.push w).v = s.v := by
  unfold State.push; split <;> rfl
@[simp] theorem State.push_idx (w : Word) : (s.push w).idx = s.idx := by
  unfold State.push; split <;> rfl
@[simp] theorem State.push_pc (w : Word) : (s.push w).pc = s.pc := by
  unfold State.push; split <;> rfl
@[simp] theorem State.push_dt (w : Word) : (s.push w).dt = s.dt := by
  unfold State.push; split <;> rfl
@[simp] theorem State.push_st (w : Word) : (s.push w).st = s.st := by
  unfold State.push; split <;> rfl
@[simp] theorem State.push_fb (w : Word) : (s.push w).fb = s.fb := by
  unfold State.push; split <;> rfl
@[simp] theorem State.push_key (w : Word) : (s.push w).key = s.key := by
  unfold State.push; split <;> rfl
@[simp] theorem State.push_fault (w : Word) : (s.push w).fault = s.fault := by
  unfold State.push; split <;> rfl
@[simp] theorem State.push_params (w : Word) : (s.push w).params = s.params := by
  unfold State.push; split <;> rfl
@[simp] theorem State.push_draws (w : Word) : (s.push w).draws = s.draws := by
  unfold State.push; split <;> rfl

/-! popPC -/

@[simp] theorem State.popPC_mem  : (s.popPC).mem = s.mem := by
  unfold State.popPC; split <;> rfl
@[simp] theorem State.popPC_v  : (s.popPC).v = s.v := by
  unfold State.popPC; split <;> rfl
@[simp] theorem State.popPC_idx  : (s.popPC).idx = s.idx := by
  unfold State.popPC; split <;> rfl
@[simp] theorem State.popPC_stack  : (s.popPC).stack = s.stack := by
  unfold State.popPC; split <;> rfl
@[simp] theorem State.popPC_dt  : (s.popPC).dt = s.dt := by
  unfold State.popPC; split <;> rfl
@[simp] theorem State.popPC_st  : (s.popPC).st = s.st := by
  unfold State.popPC; split <;> rfl
@[simp] theorem State.popPC_fb  : (s.popPC).fb = s.fb := by
  unfold State.popPC; split <;> rfl
@[simp] theorem State.popPC_key  : (s.popPC).key = s.key := by
  unfold State.popPC; split <;> rfl
@[simp] theorem State.popPC_fault  : (s.popPC).fault = s.fault := by
  unfold State.popPC; split <;> rfl
@[simp] theorem State.popPC_params  : (s.popPC).params = s.params := by
  unfold State.popPC; split <;> rfl
@[simp] theorem State.popPC_draws  : (s.popPC).draws = s.draws := by
  unfold State.popPC; split <;> rfl

/-! setVAndFlag: only V and the count of draws change. -/

@[simp] theorem State.setVAndFlag_mem (o : ClauseOrder) (x : Reg) (r g : Byte) :
    (s.setVAndFlag o x r g).mem = s.mem := by
  unfold State.setVAndFlag; split <;> (try split) <;> rfl
@[simp] theorem State.setVAndFlag_idx (o : ClauseOrder) (x : Reg) (r g : Byte) :
    (s.setVAndFlag o x r g).idx = s.idx := by
  unfold State.setVAndFlag; split <;> (try split) <;> rfl
@[simp] theorem State.setVAndFlag_pc (o : ClauseOrder) (x : Reg) (r g : Byte) :
    (s.setVAndFlag o x r g).pc = s.pc := by
  unfold State.setVAndFlag; split <;> (try split) <;> rfl
@[simp] theorem State.setVAndFlag_stack (o : ClauseOrder) (x : Reg) (r g : Byte) :
    (s.setVAndFlag o x r g).stack = s.stack := by
  unfold State.setVAndFlag; split <;> (try split) <;> rfl
@[simp] theorem State.setVAndFlag_sp (o : ClauseOrder) (x : Reg) (r g : Byte) :
    (s.setVAndFlag o x r g).sp = s.sp := by
  unfold State.setVAndFlag; split <;> (try split) <;> rfl
@[simp] theorem State.setVAndFlag_dt (o : ClauseOrder) (x : Reg) (r g : Byte) :
    (s.setVAndFlag o x r g).dt = s.dt := by
  unfold State.setVAndFlag; split <;> (try split) <;> rfl
@[simp] theorem State.setVAndFlag_st (o : ClauseOrder) (x : Reg) (r g : Byte) :
    (s.setVAndFlag o x r g).st = s.st := by
  unfold State.setVAndFlag; split <;> (try split) <;> rfl
@[simp] theorem State.setVAndFlag_fb (o : ClauseOrder) (x : Reg) (r g : Byte) :
    (s.setVAndFlag o x r g).fb = s.fb := by
  unfold State.setVAndFlag; split <;> (try split) <;> rfl
@[simp] theorem State.setVAndFlag_key (o : ClauseOrder) (x : Reg) (r g : Byte) :
    (s.setVAndFlag o x r g).key = s.key := by
  unfold State.setVAndFlag; split <;> (try split) <;> rfl
@[simp] theorem State.setVAndFlag_fault (o : ClauseOrder) (x : Reg) (r g : Byte) :
    (s.setVAndFlag o x r g).fault = s.fault := by
  unfold State.setVAndFlag; split <;> (try split) <;> rfl
@[simp] theorem State.setVAndFlag_params (o : ClauseOrder) (x : Reg) (r g : Byte) :
    (s.setVAndFlag o x r g).params = s.params := by
  unfold State.setVAndFlag; split <;> (try split) <;> rfl

/-! storeBytes: only memory changes. -/

@[simp] theorem State.storeBytes_v (base : Nat) (bs : List Byte) : (s.storeBytes base bs).v = s.v := by
  induction bs generalizing s base with
  | nil => rfl
  | cons b rest ih => simp [State.storeBytes, ih]
@[simp] theorem State.storeBytes_idx (base : Nat) (bs : List Byte) : (s.storeBytes base bs).idx = s.idx := by
  induction bs generalizing s base with
  | nil => rfl
  | cons b rest ih => simp [State.storeBytes, ih]
@[simp] theorem State.storeBytes_pc (base : Nat) (bs : List Byte) : (s.storeBytes base bs).pc = s.pc := by
  induction bs generalizing s base with
  | nil => rfl
  | cons b rest ih => simp [State.storeBytes, ih]
@[simp] theorem State.storeBytes_stack (base : Nat) (bs : List Byte) : (s.storeBytes base bs).stack = s.stack := by
  induction bs generalizing s base with
  | nil => rfl
  | cons b rest ih => simp [State.storeBytes, ih]
@[simp] theorem State.storeBytes_sp (base : Nat) (bs : List Byte) : (s.storeBytes base bs).sp = s.sp := by
  induction bs generalizing s base with
  | nil => rfl
  | cons b rest ih => simp [State.storeBytes, ih]
@[simp] theorem State.storeBytes_dt (base : Nat) (bs : List Byte) : (s.storeBytes base bs).dt = s.dt := by
  induction bs generalizing s base with
  | nil => rfl
  | cons b rest ih => simp [State.storeBytes, ih]
@[simp] theorem State.storeBytes_st (base : Nat) (bs : List Byte) : (s.storeBytes base bs).st = s.st := by
  induction bs generalizing s base with
  | nil => rfl
  | cons b rest ih => simp [State.storeBytes, ih]
@[simp] theorem State.storeBytes_fb (base : Nat) (bs : List Byte) : (s.storeBytes base bs).fb = s.fb := by
  induction bs generalizing s base with
  | nil => rfl
  | cons b rest ih => simp [State.storeBytes, ih]
@[simp] theorem State.storeBytes_key (base : Nat) (bs : List Byte) : (s.storeBytes base bs).key = s.key := by
  induction bs generalizing s base with
  | nil => rfl
  | cons b rest ih => simp [State.storeBytes, ih]
@[simp] theorem State.storeBytes_fault (base : Nat) (bs : List Byte) : (s.storeBytes base bs).fault = s.fault := by
  induction bs generalizing s base with
  | nil => rfl
  | cons b rest ih => simp [State.storeBytes, ih]
@[simp] theorem State.storeBytes_params (base : Nat) (bs : List Byte) : (s.storeBytes base bs).params = s.params := by
  induction bs generalizing s base with
  | nil => rfl
  | cons b rest ih => simp [State.storeBytes, ih]
@[simp] theorem State.storeBytes_draws (base : Nat) (bs : List Byte) : (s.storeBytes base bs).draws = s.draws := by
  induction bs generalizing s base with
  | nil => rfl
  | cons b rest ih => simp [State.storeBytes, ih]

/-! loadRegs: only V changes. -/

@[simp] theorem State.loadRegs_mem (base : Nat) (ks : List Reg) : (s.loadRegs base ks).mem = s.mem := by
  unfold State.loadRegs
  generalize s.readByte = g
  induction ks generalizing s with
  | nil => rfl
  | cons k rest ih => simp [ih]
@[simp] theorem State.loadRegs_idx (base : Nat) (ks : List Reg) : (s.loadRegs base ks).idx = s.idx := by
  unfold State.loadRegs
  generalize s.readByte = g
  induction ks generalizing s with
  | nil => rfl
  | cons k rest ih => simp [ih]
@[simp] theorem State.loadRegs_pc (base : Nat) (ks : List Reg) : (s.loadRegs base ks).pc = s.pc := by
  unfold State.loadRegs
  generalize s.readByte = g
  induction ks generalizing s with
  | nil => rfl
  | cons k rest ih => simp [ih]
@[simp] theorem State.loadRegs_stack (base : Nat) (ks : List Reg) : (s.loadRegs base ks).stack = s.stack := by
  unfold State.loadRegs
  generalize s.readByte = g
  induction ks generalizing s with
  | nil => rfl
  | cons k rest ih => simp [ih]
@[simp] theorem State.loadRegs_sp (base : Nat) (ks : List Reg) : (s.loadRegs base ks).sp = s.sp := by
  unfold State.loadRegs
  generalize s.readByte = g
  induction ks generalizing s with
  | nil => rfl
  | cons k rest ih => simp [ih]
@[simp] theorem State.loadRegs_dt (base : Nat) (ks : List Reg) : (s.loadRegs base ks).dt = s.dt := by
  unfold State.loadRegs
  generalize s.readByte = g
  induction ks generalizing s with
  | nil => rfl
  | cons k rest ih => simp [ih]
@[simp] theorem State.loadRegs_st (base : Nat) (ks : List Reg) : (s.loadRegs base ks).st = s.st := by
  unfold State.loadRegs
  generalize s.readByte = g
  induction ks generalizing s with
  | nil => rfl
  | cons k rest ih => simp [ih]
@[simp] theorem State.loadRegs_fb (base : Nat) (ks : List Reg) : (s.loadRegs base ks).fb = s.fb := by
  unfold State.loadRegs
  generalize s.readByte = g
  induction ks generalizing s with
  | nil => rfl
  | cons k rest ih => simp [ih]
@[simp] theorem State.loadRegs_key (base : Nat) (ks : List Reg) : (s.loadRegs base ks).key = s.key := by
  unfold State.loadRegs
  generalize s.readByte = g
  induction ks generalizing s with
  | nil => rfl
  | cons k rest ih => simp [ih]
@[simp] theorem State.loadRegs_fault (base : Nat) (ks : List Reg) : (s.loadRegs base ks).fault = s.fault := by
  unfold State.loadRegs
  generalize s.readByte = g
  induction ks generalizing s with
  | nil => rfl
  | cons k rest ih => simp [ih]
@[simp] theorem State.loadRegs_params (base : Nat) (ks : List Reg) : (s.loadRegs base ks).params = s.params := by
  unfold State.loadRegs
  generalize s.readByte = g
  induction ks generalizing s with
  | nil => rfl
  | cons k rest ih => simp [ih]
@[simp] theorem State.loadRegs_draws (base : Nat) (ks : List Reg) : (s.loadRegs base ks).draws = s.draws := by
  unfold State.loadRegs
  generalize s.readByte = g
  induction ks generalizing s with
  | nil => rfl
  | cons k rest ih => simp [ih]

/-! Reading a register and a byte. -/

theorem State.getV_setV (x y : Reg) (b : Byte) : (s.setV x b).getV y = if y = x then b else s.getV y := by
  by_cases h : y = x
  · subst h; simp [State.getV]
  · have : x.val ≠ y.val := fun e => h (Fin.ext e.symm)
    simp [State.getV, h, this]

@[simp] theorem State.getV_setV_same (x : Reg) (b : Byte) : (s.setV x b).getV x = b := by simp [State.getV_setV]

theorem State.getV_setV_of_ne {x y : Reg} (b : Byte) (h : y ≠ x) : (s.setV x b).getV y = s.getV y := by
  simp [State.getV_setV, h]

/-- Two states with the same V read the same registers. -/
theorem State.getV_congr {s t : State} (h : t.v = s.v) (x : Reg) : t.getV x = s.getV x := by simp [State.getV, h]

/-- Two states with the same memory and FONT read the same bytes. -/
theorem State.readByte_congr {s t : State} (hm : t.mem = s.mem) (hp : t.params = s.params) (a : Nat) :
    t.readByte a = s.readByte a := by simp [State.readByte, hm, hp]

@[simp] theorem State.readByte_setV (x : Reg) (b : Byte) (k : Nat) : (s.setV x b).readByte k = s.readByte k := rfl
@[simp] theorem State.getV_setI (w : Word) (y : Reg) : (s.setI w).getV y = s.getV y := rfl
@[simp] theorem State.readByte_setI (w : Word) (k : Nat) : (s.setI w).readByte k = s.readByte k := rfl
@[simp] theorem State.getV_setPC (w : Word) (y : Reg) : (s.setPC w).getV y = s.getV y := rfl
@[simp] theorem State.readByte_setPC (w : Word) (k : Nat) : (s.setPC w).readByte k = s.readByte k := rfl
@[simp] theorem State.getV_advance (y : Reg) : (s.advance).getV y = s.getV y := rfl
@[simp] theorem State.readByte_advance (k : Nat) : (s.advance).readByte k = s.readByte k := rfl
@[simp] theorem State.getV_rewind (y : Reg) : (s.rewind).getV y = s.getV y := rfl
@[simp] theorem State.readByte_rewind (k : Nat) : (s.rewind).readByte k = s.readByte k := rfl
@[simp] theorem State.getV_writeByte (a : Nat) (b : Byte) (y : Reg) : (s.writeByte a b).getV y = s.getV y := rfl
@[simp] theorem State.getV_withFault (c : Fault) (o : Option Word) (a : Nat) (y : Reg) : (s.withFault c o a).getV y = s.getV y := rfl
@[simp] theorem State.readByte_withFault (c : Fault) (o : Option Word) (a : Nat) (k : Nat) : (s.withFault c o a).readByte k = s.readByte k := rfl
@[simp] theorem State.getV_nextDraw (y : Reg) : (s.nextDraw).getV y = s.getV y := rfl
@[simp] theorem State.readByte_nextDraw (k : Nat) : (s.nextDraw).readByte k = s.readByte k := rfl
@[simp] theorem State.getV_skipIf (c : Bool) (y : Reg) : (s.skipIf c).getV y = s.getV y := State.getV_congr (by simp) y
@[simp] theorem State.readByte_skipIf (c : Bool) (k : Nat) : (s.skipIf c).readByte k = s.readByte k :=
  State.readByte_congr (by simp) (by simp) k
@[simp] theorem State.getV_push (w : Word) (y : Reg) : (s.push w).getV y = s.getV y := State.getV_congr (by simp) y
@[simp] theorem State.readByte_push (w : Word) (k : Nat) : (s.push w).readByte k = s.readByte k :=
  State.readByte_congr (by simp) (by simp) k
@[simp] theorem State.getV_popPC (y : Reg) : (s.popPC).getV y = s.getV y := State.getV_congr (by simp) y
@[simp] theorem State.readByte_popPC (k : Nat) : (s.popPC).readByte k = s.readByte k :=
  State.readByte_congr (by simp) (by simp) k
@[simp] theorem State.readByte_setVAndFlag (o : ClauseOrder) (x : Reg) (r g : Byte) (k : Nat) : (s.setVAndFlag o x r g).readByte k = s.readByte k :=
  State.readByte_congr (by simp) (by simp) k
@[simp] theorem State.getV_storeBytes (base : Nat) (bs : List Byte) (y : Reg) : (s.storeBytes base bs).getV y = s.getV y := State.getV_congr (by simp) y
@[simp] theorem State.readByte_loadRegs (base : Nat) (ks : List Reg) (k : Nat) : (s.loadRegs base ks).readByte k = s.readByte k :=
  State.readByte_congr (by simp) (by simp) k

end Sys2Proof.Machine
end

