-- ==== Sys2Proof/Laws/Memory.lean ====
section
/-! SUPPORT. The laws of memory: read after write, the canonical form and that every write keeps it, and the range of
an access. -/

namespace Sys2Proof.Machine

variable (font : Vector Byte 80)

namespace Memory

theorem place_eq (a : Nat) (b : Byte) (rest : Memory) :
    place font a b rest = rest ∧ b = resetByte font a ∨
      place font a b rest = (a, b) :: rest ∧ b ≠ resetByte font a := by
  unfold place
  split <;> simp_all

/-- A list that holds no cell at an address reads its reset content there. -/
theorem read_of_not_listed {m : Memory} {a : Nat} (h : ∀ c ∈ m, c.1 ≠ a) : m.read font a = resetByte font a := by
  induction m with
  | nil => rfl
  | cons c rest ih =>
    have hc : c.1 ≠ a := h c (by simp)
    simp [read, hc, ih (fun d hd => h d (by simp [hd]))]

theorem wf_nil : wf font [] := by simp [wf]

theorem wf_cons {c : Host.Cell} {rest : Memory} :
    wf font (c :: rest) ↔
      (∀ d ∈ rest, c.1 < d.1) ∧ (c.1 < Config.memSize ∧ c.2 ≠ resetByte font c.1) ∧ wf font rest := by
  simp [wf, List.pairwise_cons]
  tauto

/-- In a canonical list whose cells all lie above a, the address a is not listed. -/
theorem read_of_lt {m : Memory} {a : Nat} (h : ∀ c ∈ m, a < c.1) : m.read font a = resetByte font a :=
  read_of_not_listed font (fun c hc => (h c hc).ne')

theorem read_place (a k : Nat) (b : Byte) (rest : Memory) (h : ∀ c ∈ rest, a < c.1) :
    (place font a b rest).read font k = if k = a then b else rest.read font k := by
  rcases place_eq font a b rest with ⟨e, hb⟩ | ⟨e, -⟩
  · rw [e]
    split
    · next hk => subst hk; rw [read_of_lt font h, hb]
    · rfl
  · rw [e]
    simp only [read]
    by_cases hk : k = a
    · simp [hk]
    · simp [hk, Ne.symm hk]

/-- M[k] after M[a] <- b. -/
theorem read_write {m : Memory} (h : wf font m) (a k : Nat) (b : Byte) :
    (m.write font a b).read font k = if k = a then b else m.read font k := by
  induction m with
  | nil => exact read_place font a k b [] (by simp)
  | cons c rest ih =>
    obtain ⟨c1, c2⟩ := c
    obtain ⟨hlt, -, hwf⟩ := (wf_cons font).1 h
    simp only [write]
    split
    · next hac =>
      refine read_place font a k b _ ?_
      intro d hd
      rcases List.mem_cons.1 hd with rfl | hd
      · exact hac
      · exact hac.trans (hlt d hd)
    · split
      · next hac =>
        subst hac
        rw [read_place font a k b rest hlt]
        by_cases hk : k = a
        · simp [hk]
        · simp [hk, read, Ne.symm hk]
      · next hac =>
        simp only [read, ih hwf]
        by_cases hk : c1 = k
        · subst hk; simp [Ne.symm hac]
        · simp [hk]

/-- A cell of a written list is the cell written or one that was listed. -/
theorem mem_write {m : Memory} {a : Nat} {b : Byte} {d : Host.Cell} (h : d ∈ m.write font a b) :
    d = (a, b) ∧ b ≠ resetByte font a ∨ d ∈ m := by
  have hplace : ∀ {rest : Memory}, d ∈ place font a b rest → d = (a, b) ∧ b ≠ resetByte font a ∨ d ∈ rest := by
    intro rest hd
    rcases place_eq font a b rest with ⟨e, -⟩ | ⟨e, hb⟩ <;> rw [e] at hd
    · exact .inr hd
    · rcases List.mem_cons.1 hd with rfl | hd
      · exact .inl ⟨rfl, hb⟩
      · exact .inr hd
  induction m with
  | nil => exact hplace h
  | cons c rest ih =>
    obtain ⟨c1, c2⟩ := c
    simp only [write] at h
    split at h
    · exact hplace h
    · split at h
      · exact (hplace h).imp_right (List.mem_cons_of_mem _)
      · rcases List.mem_cons.1 h with rfl | h
        · exact .inr (by simp)
        · exact (ih h).imp_right (List.mem_cons_of_mem _)

theorem wf_place {a : Nat} {b : Byte} {rest : Memory} (ha : a < Config.memSize) (hlt : ∀ c ∈ rest, a < c.1)
    (h : wf font rest) : wf font (place font a b rest) := by
  rcases place_eq font a b rest with ⟨e, -⟩ | ⟨e, hb⟩ <;> rw [e]
  · exact h
  · exact (wf_cons font).2 ⟨hlt, ⟨ha, hb⟩, h⟩

/-- A write inside the address space keeps the canonical form. -/
theorem wf_write {m : Memory} (h : wf font m) {a : Nat} (ha : a < Config.memSize) (b : Byte) :
    wf font (m.write font a b) := by
  induction m with
  | nil => exact wf_place font ha (by simp) (wf_nil font)
  | cons c rest ih =>
    obtain ⟨c1, c2⟩ := c
    obtain ⟨hlt, hc, hwf⟩ := (wf_cons font).1 h
    simp only [write]
    split
    · next hac =>
      refine wf_place font ha ?_ h
      intro d hd
      rcases List.mem_cons.1 hd with rfl | hd
      · exact hac
      · exact hac.trans (hlt d hd)
    · split
      · next hac => subst hac; exact wf_place font ha hlt hwf
      · next hge hne =>
        refine (wf_cons font).2 ⟨?_, hc, ih hwf⟩
        intro d hd
        rcases mem_write font hd with ⟨rfl, -⟩ | hd
        · simp only; omega
        · exact hlt d hd

end Memory

/-! The same through the state. -/

variable {s : State}

/-- Reading after M[a] <- b. -/
theorem State.readByte_writeByte (h : s.memWf) (a k : Nat) (b : Byte) :
    (s.writeByte a b).readByte k = if k = a then b else s.readByte k := Memory.read_write _ h a k b

theorem State.memWf_writeByte (h : s.memWf) {a : Nat} (ha : a < Config.memSize) (b : Byte) :
    (s.writeByte a b).memWf := Memory.wf_write _ h ha b

theorem State.memWf_storeBytes {base : Nat} {bs : List Byte} (h : s.memWf)
    (hb : base + bs.length ≤ Config.memSize) : (s.storeBytes base bs).memWf := by
  induction bs generalizing s base with
  | nil => exact h
  | cons b rest ih =>
    simp only [List.length_cons] at hb
    exact ih (State.memWf_writeByte h (by omega) b) (by omega)

/-- Reading after bytes are stored from base: inside the range the stored byte, outside it what was there. -/
theorem State.readByte_storeBytes {base : Nat} {bs : List Byte} (h : s.memWf)
    (hb : base + bs.length ≤ Config.memSize) (k : Nat) :
    (s.storeBytes base bs).readByte k =
      if hk : base ≤ k ∧ k < base + bs.length then bs[k - base]'(by omega) else s.readByte k := by
  induction bs generalizing s base with
  | nil => simp [State.storeBytes, show ¬ (base ≤ k ∧ k < base) by omega]
  | cons b rest ih =>
    simp only [List.length_cons] at hb
    have hw : (s.writeByte base b).memWf := State.memWf_writeByte h (by omega) b
    simp only [State.storeBytes]
    rw [ih hw (by omega), State.readByte_writeByte h]
    by_cases h1 : k = base
    · subst h1; simp
    · by_cases h2 : base + 1 ≤ k ∧ k < base + 1 + rest.length
      · have h3 : base ≤ k ∧ k < base + (b :: rest).length := by simp only [List.length_cons]; omega
        rw [dif_pos h2, dif_pos h3]
        have : k - base = k - (base + 1) + 1 := by omega
        simp [this]
      · have h3 : ¬ (base ≤ k ∧ k < base + (b :: rest).length) := by simp only [List.length_cons]; omega
        rw [dif_neg h2, dif_neg h3, if_neg h1]

/-! The range check (42_index_memory.md R188). -/

theorem mem_rangeAddrs {base len a : Nat} : a ∈ rangeAddrs base len ↔ base ≤ a ∧ a < base + len := by
  simp only [rangeAddrs, List.mem_map, List.mem_range]
  constructor
  · rintro ⟨k, hk, rfl⟩; omega
  · intro h; exact ⟨a - base, by omega, by omega⟩

@[simp] theorem length_rangeAddrs (base len : Nat) : (rangeAddrs base len).length = len := by simp [rangeAddrs]

theorem rangeAddrs_succ (base len : Nat) : rangeAddrs base (len + 1) = base :: rangeAddrs (base + 1) len := by
  simp [rangeAddrs, List.range_succ_eq_map, Nat.add_assoc, Nat.add_comm 1]

/-- The first address of a range above 0xFFF. -/
theorem find_above (base len : Nat) :
    (rangeAddrs base len).find? (fun a => decide (a > 0xFFF)) =
      if 0 < len ∧ base + len > 0x1000 then some (max base 0x1000) else none := by
  induction len generalizing base with
  | zero => simp [rangeAddrs]
  | succ len ih =>
    rw [rangeAddrs_succ, List.find?_cons, ih]
    by_cases h : base > 0xFFF
    · simp [h]; omega
    · simp only [h, decide_false]
      by_cases h2 : 0 < len ∧ base + 1 + len > 0x1000
      · rw [if_pos h2, if_pos (by omega)]
        congr 1; omega
      · rw [if_neg h2, if_neg (by omega)]

/-- The first address of a range below 0x200. -/
theorem find_low (base len : Nat) :
    (rangeAddrs base len).find? (fun a => decide (a < Config.programBase)) =
      if 0 < len ∧ base < Config.programBase then some base else none := by
  induction len generalizing base with
  | zero => simp [rangeAddrs]
  | succ len ih =>
    rw [rangeAddrs_succ, List.find?_cons, ih]
    by_cases h : base < Config.programBase
    · simp [h]
    · simp [h]; omega

/-- What CheckRange answers, in closed form. -/
theorem checkRange_eq (low isWrite : Bool) (base len : Nat) :
    checkRange low isWrite base len =
      if 0 < len ∧ base + len > 0x1000 then
        some (if isWrite then .memWriteOutOfBounds else .memReadOutOfBounds, max base 0x1000)
      else if isWrite = true ∧ low = true ∧ 0 < len ∧ base < Config.programBase then some (.protectedWrite, base)
      else none := by
  unfold checkRange
  rw [find_above, find_low]
  by_cases h : 0 < len ∧ base + len > 0x1000
  · simp [h]
  · rw [if_neg h, if_neg h]
    cases isWrite <;> cases low <;> simp

/-- CheckRange passes over a read exactly where the range ends inside memory. -/
theorem checkRange_read_none {low : Bool} {base len : Nat} :
    checkRange low false base len = none ↔ len = 0 ∨ base + len ≤ 0x1000 := by
  rw [checkRange_eq]
  by_cases h : 0 < len ∧ base + len > 0x1000
  · simp [h]; omega
  · simp [h]; omega

/-- CheckRange passes over a write exactly where the range ends inside memory and no low-write check fails. -/
theorem checkRange_write_none {low : Bool} {base len : Nat} (h : 0 < len) :
    checkRange low true base len = none ↔ base + len ≤ 0x1000 ∧ (low = true → Config.programBase ≤ base) := by
  rw [checkRange_eq]
  by_cases h1 : base + len > 0x1000
  · simp [h, h1]
  · cases low <;> simp [h, h1] <;> omega

end Sys2Proof.Machine
end

