-- ==== Sys2Proof/Laws/Ops.lean ====
section
/-! SUPPORT. What each shared operation can do, said once: the checked effect of an instruction, the call stack, the
registers and flags, the key scan. -/

namespace Sys2Proof.Machine

variable (s : State)

/-! Taking a fault. -/

/-- A checked effect answers the effect, or the state before the step with the fault taken. -/
theorem checked_cases {check : Option (Fault × Nat)} {w : Word} {s done t : State}
    (h : checked check w s done = .next t) :
    check = none ∧ t = done ∨ ∃ c a, check = some (c, a) ∧ t = s.withFault c (some w) a := by
  unfold checked at h
  split at h
  · next c a => exact .inr ⟨c, a, rfl, by simpa [raise] using h.symm⟩
  · exact .inl ⟨rfl, by simpa using h.symm⟩

theorem checked_of_none {check : Option (Fault × Nat)} (h : check = none) (w : Word) (done : State) :
    checked check w s done = .next done := by simp [checked, h]

theorem checked_of_some {check : Option (Fault × Nat)} {c : Fault} {a : Nat} (h : check = some (c, a)) (w : Word)
    (done : State) : checked check w s done = .next (s.withFault c (some w) a) := by simp [checked, h, raise]

/-! Program counter. -/

/-- Fx0A's rewind takes the fetch advance back. -/
@[simp] theorem State.rewind_advance : s.advance.rewind = s := by
  cases s
  simp [State.rewind, State.advance]

/-! Call stack (10_state.md R31). -/

theorem State.pushCheck_eq : s.pushCheck = none ↔ s.sp.val < 16 := by
  unfold State.pushCheck
  split <;> simp <;> omega

theorem State.popCheck_eq : s.popCheck = none ↔ 0 < s.sp.val := by
  unfold State.popCheck
  split <;> simp <;> omega

theorem State.push_sp {s : State} (h : s.sp.val < 16) (w : Word) : (s.push w).sp.val = s.sp.val + 1 := by
  simp [State.push, h]

/-- Push writes the slot SP and no other. -/
theorem State.push_slot {s : State} (h : s.sp.val < 16) (w : Word) (k : Fin 16) :
    (s.push w).stack[k] = if k.val = s.sp.val then w else s.stack[k] := by
  simp only [State.push, h, dite_true, Fin.getElem_fin, Vector.getElem_set]
  by_cases e : k.val = s.sp.val
  · simp [e]
  · simp [e, Ne.symm e]

theorem State.popPC_sp {s : State} (h : 0 < s.sp.val) : s.popPC.sp.val = s.sp.val - 1 := by
  simp [State.popPC, h]

/-- Pop takes PC from the slot below SP. -/
theorem State.popPC_pc {s : State} (h : 0 < s.sp.val) : s.popPC.pc = s.stack[s.sp.val - 1]'(by omega) := by
  simp [State.popPC, h]

/-! Flags (10_state.md R28). -/

theorem carryFlag_eq (p q : Byte) : carryFlag p q = if p.toNat + q.toNat ≥ 256 then 1 else 0 := by
  simp [carryFlag, flagByte]

theorem notBorrowFlag_eq (p q : Byte) : notBorrowFlag p q = if p.toNat < q.toNat then 0 else 1 := by
  unfold notBorrowFlag flagByte
  by_cases h : p.toNat < q.toNat <;> simp [h]

/-- Registers that are neither the destination nor VF are kept. -/
theorem State.getV_setVAndFlag_other (o : ClauseOrder) {x y : Reg} (r g : Byte) (hx : y ≠ x) (hf : y ≠ VF) :
    (s.setVAndFlag o x r g).getV y = s.getV y := by
  unfold State.setVAndFlag
  split <;> (try split) <;> simp [State.getV_setV, hx, hf]

/-- A destination other than VF keeps the result. -/
theorem State.getV_setVAndFlag_dest (o : ClauseOrder) {x : Reg} (r g : Byte) (hx : x ≠ VF) :
    (s.setVAndFlag o x r g).getV x = r := by
  unfold State.setVAndFlag
  split <;> simp [State.getV_setV, hx]

/-- VF keeps the flag when it is not the destination. -/
theorem State.getV_setVAndFlag_flag (o : ClauseOrder) {x : Reg} (r g : Byte) (hx : x ≠ VF) :
    (s.setVAndFlag o x r g).getV VF = g := by
  unfold State.setVAndFlag
  split <;> simp [State.getV_setV, hx, Ne.symm hx]

/-- What VF keeps when it is the destination (41_alu.md R141). -/
theorem State.getV_setVAndFlag_alias (o : ClauseOrder) (r g : Byte) :
    (s.setVAndFlag o VF r g).getV VF =
      match s.params.vfAlias, o with
      | .textOrder, .resultThenFlag => g
      | .textOrder, .flagThenResult => r
      | .flagLast, _ => g
      | .unconstrained, _ => Config.vfDraw s.draws := by
  unfold State.setVAndFlag
  split <;> simp_all

/-- A draw is taken exactly when VF is the destination under Unconstrained. -/
theorem State.draws_setVAndFlag (o : ClauseOrder) (x : Reg) (r g : Byte) :
    (s.setVAndFlag o x r g).draws = if s.params.vfAlias = .unconstrained ∧ x = VF then s.draws + 1 else s.draws := by
  unfold State.setVAndFlag
  split <;> (try split) <;> simp_all

/-! Register ranges (42_index_memory.md R185, R187). -/

theorem mem_regsUpTo {x k : Reg} : k ∈ regsUpTo x ↔ k ≤ x := by simp [regsUpTo]

theorem regsUpTo_length (x : Reg) : (regsUpTo x).length = x.val + 1 := by
  revert x; decide

theorem regsUpTo_get (x : Reg) (k : Nat) (h : k < (regsUpTo x).length) : (regsUpTo x)[k].val = k := by
  rw [regsUpTo_length] at h
  have key : ∀ (x : Reg) (k : Fin 16) (h : k ≤ x), ((regsUpTo x)[k.val]?).map Fin.val = some k.val := by decide
  have hk := key x ⟨k, by omega⟩ (by simp [Fin.le_def]; omega)
  rw [List.getElem?_eq_getElem (by rw [regsUpTo_length]; exact h)] at hk
  simpa using hk

@[simp] theorem State.regBytes_length (x : Reg) : (s.regBytes x).length = x.val + 1 := by
  simp [State.regBytes, regsUpTo_length]

theorem State.regBytes_get (x : Reg) (k : Nat) (h : k < (s.regBytes x).length) :
    (s.regBytes x)[k] = s.getV ⟨k, by simp at h; omega⟩ := by
  simp only [State.regBytes, List.getElem_map]
  congr 1
  exact Fin.ext (regsUpTo_get x k (by simpa [regsUpTo_length] using h))

theorem State.getV_loadRegs (base : Nat) (ks : List Reg) (y : Reg) :
    (s.loadRegs base ks).getV y = if y ∈ ks then s.readByte (base + y.val) else s.getV y := by
  unfold State.loadRegs
  generalize s.readByte = g
  induction ks generalizing s with
  | nil => simp
  | cons k rest ih =>
    simp only [List.foldl_cons, ih, State.getV_setV, List.mem_cons]
    by_cases hk : y = k
    · subst hk; simp
    · simp [hk]

/-! The key scan (44_keypad_timers.md R224). -/

/-- The first pressed key is pressed, and no lower key is. -/
theorem State.firstKey_some {s : State} {k : Key} (h : s.firstKey = some k) :
    s.key[k] = true ∧ ∀ j : Key, j < k → s.key[j] = false := by
  unfold State.firstKey at h
  refine ⟨by simpa using List.find?_some h, fun j hj => ?_⟩
  obtain ⟨_, as, bs, hl, has⟩ := List.find?_eq_some_iff_append.1 h
  have hjm : j ∈ as := by
    have hs : (as ++ k :: bs).Pairwise (· < ·) := by rw [← hl]; exact List.pairwise_lt_finRange 16
    have hj' : j ∈ as ++ k :: bs := by rw [← hl]; exact List.mem_finRange j
    rcases List.mem_append.1 hj' with h1 | h1
    · exact h1
    · rw [List.pairwise_append] at hs
      rcases List.mem_cons.1 h1 with rfl | h2
      · exact absurd hj (lt_irrefl _)
      · exact absurd ((List.pairwise_cons.1 hs.2.1).1 j h2) (not_lt.2 hj.le)
  simpa using has j hjm

theorem State.firstKey_none {s : State} (h : s.firstKey = none) (k : Key) : s.key[k] = false := by
  simpa using List.find?_eq_none.1 h k (List.mem_finRange k)

/-! A key a byte names (44_keypad_timers.md R227). -/

theorem keyOf_of_lt {b : Byte} (h : b.toNat < 16) : keyOf b = some ⟨b.toNat, h⟩ := by simp [keyOf, h]

theorem keyOf_of_ge {b : Byte} (h : ¬ b.toNat < 16) : keyOf b = none := by simp [keyOf, h]

/-! BCD (42_index_memory.md R184). -/

@[simp] theorem bcdDigits_length (b : Byte) : (bcdDigits b).length = 3 := rfl

end Sys2Proof.Machine
end

