-- ==== Sys2Proof/Laws/Framebuffer.lean ====
section
/-! SUPPORT. The laws of the framebuffer: one pixel after a pixel is set, and after a sprite is drawn. -/

namespace Sys2Proof.Machine

/-- A pixel of a frame after one pixel is set. -/
theorem Frame.pixel_setPixel (fb : Frame) (p q : Pixel) (b : Bool) :
    (fb.setPixel p b).pixel q = if q = p then b else fb.pixel q := by
  obtain ⟨px, py⟩ := p
  obtain ⟨qx, qy⟩ := q
  simp only [Frame.setPixel, Frame.pixel, Fin.getElem_fin, Vector.getElem_set, Prod.mk.injEq]
  by_cases hy : qy = py
  · subst hy
    by_cases hx : qx = px
    · subst hx; simp
    · have : px.val ≠ qx.val := fun e => hx (Fin.ext e.symm)
      simp [hx, this]
  · have : py.val ≠ qy.val := fun e => hy (Fin.ext e.symm)
    simp [hy, this]

@[simp] theorem blankFrame_pixel (p : Pixel) : Frame.pixel blankFrame p = false := by
  simp [blankFrame, Frame.pixel]

/-- Two frames with the same pixels are the same frame. -/
theorem Frame.ext_pixel {f g : Frame} (h : ∀ p, f.pixel p = g.pixel p) : f = g := by
  refine Vector.ext fun y hy => Vector.ext fun x hx => ?_
  exact h (⟨x, hx⟩, ⟨y, hy⟩)

/-- A pixel after a draw: updated from its value before, if some set sprite bit lands on it (R202, R207). -/
theorem drawPixels_pixel (mode : DrawMode) (old : Frame) (dests : List Pixel) (q : Pixel) :
    (drawPixels mode old dests).pixel q = if q ∈ dests then updatePixel mode (old.pixel q) else old.pixel q := by
  have key : ∀ (new : Frame), (dests.foldl (fun n p => n.setPixel p (updatePixel mode (old.pixel p))) new).pixel q =
      if q ∈ dests then updatePixel mode (old.pixel q) else new.pixel q := by
    induction dests with
    | nil => simp
    | cons p rest ih =>
      intro new
      simp only [List.foldl_cons, ih, Frame.pixel_setPixel, List.mem_cons]
      by_cases hq : q = p
      · subst hq; simp
      · simp [hq]
  exact key old

theorem mem_rowPixels {px0 py0 : Byte} {row : Nat} {b : Byte} {q : Pixel} :
    q ∈ rowPixels px0 py0 row b ↔ ∃ col < 8, spriteBit b col = true ∧ q = spriteDest px0 py0 row col := by
  simp only [rowPixels, List.mem_map, List.mem_filter, List.mem_range]
  constructor
  · rintro ⟨col, ⟨h, hb⟩, rfl⟩; exact ⟨col, h, hb, rfl⟩
  · rintro ⟨col, h, hb, rfl⟩; exact ⟨col, ⟨h, hb⟩, rfl⟩

theorem mem_spritePixels {px0 py0 : Byte} {row : Nat} {bs : List Byte} {q : Pixel} :
    q ∈ spritePixels px0 py0 row bs ↔
      ∃ k, ∃ h : k < bs.length, ∃ col < 8, spriteBit bs[k] col = true ∧ q = spriteDest px0 py0 (row + k) col := by
  induction bs generalizing row with
  | nil => simp [spritePixels]
  | cons b rest ih =>
    simp only [spritePixels, List.mem_append, mem_rowPixels, ih]
    constructor
    · rintro (⟨col, h, hb, e⟩ | ⟨k, h, col, hc, hb, e⟩)
      · exact ⟨0, by simp, col, h, by simpa using hb, by simpa using e⟩
      · exact ⟨k + 1, by simpa using h, col, hc, by simpa using hb, by rw [e, Nat.add_right_comm, Nat.add_assoc]⟩
    · rintro ⟨k, h, col, hc, hb, e⟩
      cases k with
      | zero => exact .inl ⟨col, hc, by simpa using hb, by simpa using e⟩
      | succ k =>
        exact .inr ⟨k, by simpa using h, col, hc, by simpa using hb, by rw [e, Nat.add_right_comm, Nat.add_assoc]⟩

/-- The pixels under the set bits of the n-row sprite at I (R202, R203). -/
theorem State.mem_spriteAt {s : State} {x y : Reg} {n : Nat} {q : Pixel} :
    q ∈ s.spriteAt x y n ↔
      ∃ row < n, ∃ col < 8, spriteBit (s.readByte (s.idx.toNat + row)) col = true ∧
        q = spriteDest (s.getV x) (s.getV y) row col := by
  simp only [State.spriteAt, mem_spritePixels, State.readBytes, List.length_map, length_rangeAddrs, List.getElem_map,
    Nat.zero_add]
  constructor
  · rintro ⟨k, h, col, hc, hb, e⟩; exact ⟨k, h, col, hc, by simpa [rangeAddrs] using hb, e⟩
  · rintro ⟨k, h, col, hc, hb, e⟩; exact ⟨k, h, col, hc, by simpa [rangeAddrs] using hb, e⟩

theorem collides_iff {old : Frame} {dests : List Pixel} : collides old dests = true ↔ ∃ q ∈ dests, old.pixel q = true := by
  simp [collides]

end Sys2Proof.Machine
end

