-- ==== Sys2Proof/Laws/PerInstr.lean ====
section
/-! SUPPORT. Statements about every instruction as syntax, one lemma per constructor (LAWS.json). -/

namespace Sys2Proof.Laws.EncodesItsRow

/-- The instruction's word is selected by the instruction's own row of the opcode map: `w & mask = match` (R80). -/
def Statement (i : Instr) : Prop := (rowOf i).selects (encode i) = true

theorem nop : Statement (.nop) :=
  (selects_wordOf _ _ _ _ _).2 (by simp [rowOf, nibble1, nibble2, nibble3, nibble4])

theorem cls : Statement (.cls) :=
  (selects_wordOf _ _ _ _ _).2 (by simp [rowOf, nibble1, nibble2, nibble3, nibble4])

theorem ret : Statement (.ret) :=
  (selects_wordOf _ _ _ _ _).2 (by simp [rowOf, nibble1, nibble2, nibble3, nibble4])

theorem jpNnn (nnn : Imm12) : Statement (.jpNnn nnn) :=
  (selects_wordOf _ _ _ _ _).2 (by simp [rowOf, nibble1, nibble2, nibble3, nibble4])

theorem callNnn (nnn : Imm12) : Statement (.callNnn nnn) :=
  (selects_wordOf _ _ _ _ _).2 (by simp [rowOf, nibble1, nibble2, nibble3, nibble4])

theorem seVxNn (x : Reg) (nn : Byte) : Statement (.seVxNn x nn) :=
  (selects_wordOf _ _ _ _ _).2 (by simp [rowOf, nibble1, nibble2, nibble3, nibble4])

theorem sneVxNn (x : Reg) (nn : Byte) : Statement (.sneVxNn x nn) :=
  (selects_wordOf _ _ _ _ _).2 (by simp [rowOf, nibble1, nibble2, nibble3, nibble4])

theorem seVxVy (x y : Reg) : Statement (.seVxVy x y) :=
  (selects_wordOf _ _ _ _ _).2 (by simp [rowOf, nibble1, nibble2, nibble3, nibble4])

theorem ldVxNn (x : Reg) (nn : Byte) : Statement (.ldVxNn x nn) :=
  (selects_wordOf _ _ _ _ _).2 (by simp [rowOf, nibble1, nibble2, nibble3, nibble4])

theorem addVxNn (x : Reg) (nn : Byte) : Statement (.addVxNn x nn) :=
  (selects_wordOf _ _ _ _ _).2 (by simp [rowOf, nibble1, nibble2, nibble3, nibble4])

theorem ldVxVy (x y : Reg) : Statement (.ldVxVy x y) :=
  (selects_wordOf _ _ _ _ _).2 (by simp [rowOf, nibble1, nibble2, nibble3, nibble4])

theorem orVxVy (x y : Reg) : Statement (.orVxVy x y) :=
  (selects_wordOf _ _ _ _ _).2 (by simp [rowOf, nibble1, nibble2, nibble3, nibble4])

theorem andVxVy (x y : Reg) : Statement (.andVxVy x y) :=
  (selects_wordOf _ _ _ _ _).2 (by simp [rowOf, nibble1, nibble2, nibble3, nibble4])

theorem xorVxVy (x y : Reg) : Statement (.xorVxVy x y) :=
  (selects_wordOf _ _ _ _ _).2 (by simp [rowOf, nibble1, nibble2, nibble3, nibble4])

theorem addVxVy (x y : Reg) : Statement (.addVxVy x y) :=
  (selects_wordOf _ _ _ _ _).2 (by simp [rowOf, nibble1, nibble2, nibble3, nibble4])

theorem subVxVy (x y : Reg) : Statement (.subVxVy x y) :=
  (selects_wordOf _ _ _ _ _).2 (by simp [rowOf, nibble1, nibble2, nibble3, nibble4])

theorem shrVxVy (x y : Reg) : Statement (.shrVxVy x y) :=
  (selects_wordOf _ _ _ _ _).2 (by simp [rowOf, nibble1, nibble2, nibble3, nibble4])

theorem subnVxVy (x y : Reg) : Statement (.subnVxVy x y) :=
  (selects_wordOf _ _ _ _ _).2 (by simp [rowOf, nibble1, nibble2, nibble3, nibble4])

theorem shlVxVy (x y : Reg) : Statement (.shlVxVy x y) :=
  (selects_wordOf _ _ _ _ _).2 (by simp [rowOf, nibble1, nibble2, nibble3, nibble4])

theorem sneVxVy (x y : Reg) : Statement (.sneVxVy x y) :=
  (selects_wordOf _ _ _ _ _).2 (by simp [rowOf, nibble1, nibble2, nibble3, nibble4])

theorem ldINnn (nnn : Imm12) : Statement (.ldINnn nnn) :=
  (selects_wordOf _ _ _ _ _).2 (by simp [rowOf, nibble1, nibble2, nibble3, nibble4])

theorem jpV0Nnn (nnn : Imm12) : Statement (.jpV0Nnn nnn) :=
  (selects_wordOf _ _ _ _ _).2 (by simp [rowOf, nibble1, nibble2, nibble3, nibble4])

theorem rndVxNn (x : Reg) (nn : Byte) : Statement (.rndVxNn x nn) :=
  (selects_wordOf _ _ _ _ _).2 (by simp [rowOf, nibble1, nibble2, nibble3, nibble4])

theorem drwVxVyN (x y : Reg) (n : Fin 16) : Statement (.drwVxVyN x y n) :=
  (selects_wordOf _ _ _ _ _).2 (by simp [rowOf, nibble1, nibble2, nibble3, nibble4])

theorem skpVx (x : Reg) : Statement (.skpVx x) :=
  (selects_wordOf _ _ _ _ _).2 (by simp [rowOf, nibble1, nibble2, nibble3, nibble4])

theorem sknpVx (x : Reg) : Statement (.sknpVx x) :=
  (selects_wordOf _ _ _ _ _).2 (by simp [rowOf, nibble1, nibble2, nibble3, nibble4])

theorem ldVxDT (x : Reg) : Statement (.ldVxDT x) :=
  (selects_wordOf _ _ _ _ _).2 (by simp [rowOf, nibble1, nibble2, nibble3, nibble4])

theorem ldVxK (x : Reg) : Statement (.ldVxK x) :=
  (selects_wordOf _ _ _ _ _).2 (by simp [rowOf, nibble1, nibble2, nibble3, nibble4])

theorem ldDTVx (x : Reg) : Statement (.ldDTVx x) :=
  (selects_wordOf _ _ _ _ _).2 (by simp [rowOf, nibble1, nibble2, nibble3, nibble4])

theorem ldSTVx (x : Reg) : Statement (.ldSTVx x) :=
  (selects_wordOf _ _ _ _ _).2 (by simp [rowOf, nibble1, nibble2, nibble3, nibble4])

theorem addIVx (x : Reg) : Statement (.addIVx x) :=
  (selects_wordOf _ _ _ _ _).2 (by simp [rowOf, nibble1, nibble2, nibble3, nibble4])

theorem ldFVx (x : Reg) : Statement (.ldFVx x) :=
  (selects_wordOf _ _ _ _ _).2 (by simp [rowOf, nibble1, nibble2, nibble3, nibble4])

theorem ldBVx (x : Reg) : Statement (.ldBVx x) :=
  (selects_wordOf _ _ _ _ _).2 (by simp [rowOf, nibble1, nibble2, nibble3, nibble4])

theorem ldMemVx (x : Reg) : Statement (.ldMemVx x) :=
  (selects_wordOf _ _ _ _ _).2 (by simp [rowOf, nibble1, nibble2, nibble3, nibble4])

theorem ldVxMem (x : Reg) : Statement (.ldVxMem x) :=
  (selects_wordOf _ _ _ _ _).2 (by simp [rowOf, nibble1, nibble2, nibble3, nibble4])

end Sys2Proof.Laws.EncodesItsRow
end

