-- ==== Sys2Proof/Laws/Runs.lean ====
section
/-! SUPPORT. The runs of the host's transactions (60_exceptions.md R266): a run in two parts, and an infinite run by its
finite beginnings, so that what is proved of every finite run holds along every infinite one. -/

namespace Sys2Proof.Machine

@[simp] theorem runHost_nil (s : State) : runHost [] s = .next s := rfl

theorem runHost_cons_of_next {tr : Transaction} {s t : State} (h : transact tr s = .next t) (rest : List Transaction) :
    runHost (tr :: rest) s = runHost rest t := by
  simp [runHost, h]

/-- A run followed by one more transaction. -/
theorem runHost_concat (trs : List Transaction) (tr : Transaction) (s : State) :
    runHost (trs ++ [tr]) s =
      match runHost trs s with
      | .next t => transact tr t
      | .fault r => .fault r
      | .refused r => .refused r := by
  induction trs generalizing s with
  | nil =>
    simp only [List.nil_append, runHost]
    split <;> simp_all
  | cons a rest ih =>
    simp only [List.cons_append, runHost]
    split
    · exact ih _
    · rfl
    · rfl

/-- The first n transactions of an infinite run are the finite run of the schedule's first n transactions. -/
theorem runSchedule_eq_runHost (schedule : Schedule) (s : State) (n : Nat) :
    runSchedule schedule s n = runHost ((List.range n).map schedule) s := by
  induction n with
  | zero => rfl
  | succ n ih => rw [List.range_succ, List.map_append, List.map_singleton, runHost_concat, ← ih]; rfl

/-- What every finite run from s keeps holds in every state of every infinite run from s. -/
theorem runSchedule_of_runHost {P : State → Prop} {s : State}
    (h : ∀ trs t, runHost trs s = .next t → P t) (schedule : Schedule) (n : Nat) (t : State)
    (ht : runSchedule schedule s n = .next t) : P t :=
  h _ t (by rw [← runSchedule_eq_runHost, ht])

/-- Every finite run is the beginning of an infinite one, whatever the host does after it. -/
theorem runHost_eq_runSchedule (trs : List Transaction) (after : Transaction) (s : State) :
    runSchedule (fun n => trs.getD n after) s trs.length = runHost trs s := by
  rw [runSchedule_eq_runHost]
  congr 1
  apply List.ext_getElem
  · simp
  · intro k h1 h2
    simp [List.getD, h2]

end Sys2Proof.Machine
end

