-- ==== Sys2Proof/Laws/Step.lean ====
section
/-! SUPPORT. What a fetch, an instruction and a step can do, said once, for later proofs to cite. -/

namespace Sys2Proof.Machine

theorem fetch_none {s : State} : s.fetch = none ↔ s.pc.toNat > 0xFFE := by
  unfold State.fetch; split <;> simp <;> omega

theorem fetch_some {s : State} (h : s.pc.toNat ≤ 0xFFE) :
    s.fetch = some (s.readByte s.pc.toNat ++ s.readByte (s.pc.toNat + 1)) := by
  unfold State.fetch; rw [if_neg (by omega)]; rfl

/-- The effect an instruction has when its own check passes: t is the state it leaves (files 40 to 44 of the spec). -/
def Effect (i : Instr) (s t : State) : Prop :=
  match i with
  | .nop => t = s.advance
  | .cls => t = { s.advance with fb := blankFrame }
  | .ret => 0 < s.sp.val ∧ t = s.advance.popPC
  | .jpNnn nnn => t = s.advance.setPC (addrNnn nnn)
  | .callNnn nnn => s.sp.val < 16 ∧ t = (s.advance.push s.advance.pc).setPC (addrNnn nnn)
  | .seVxNn x nn => t = s.advance.skipIf (s.getV x == nn)
  | .sneVxNn x nn => t = s.advance.skipIf (s.getV x != nn)
  | .seVxVy x y => t = s.advance.skipIf (s.getV x == s.getV y)
  | .sneVxVy x y => t = s.advance.skipIf (s.getV x != s.getV y)
  | .ldVxNn x nn => t = s.advance.setV x nn
  | .addVxNn x nn => t = s.advance.setV x (s.getV x + nn)
  | .ldVxVy x y => t = s.advance.setV x (s.getV y)
  | .orVxVy x y => t = s.advance.setV x (s.getV x ||| s.getV y)
  | .andVxVy x y => t = s.advance.setV x (s.getV x &&& s.getV y)
  | .xorVxVy x y => t = s.advance.setV x (s.getV x ^^^ s.getV y)
  | .addVxVy x y =>
    t = s.advance.setVAndFlag .resultThenFlag x (s.getV x + s.getV y) (carryFlag (s.getV x) (s.getV y))
  | .subVxVy x y =>
    t = s.advance.setVAndFlag .resultThenFlag x (s.getV x - s.getV y) (notBorrowFlag (s.getV x) (s.getV y))
  | .shrVxVy x _ => t = s.advance.setVAndFlag .flagThenResult x (s.getV x >>> 1) (shiftedOutLow (s.getV x))
  | .subnVxVy x y =>
    t = s.advance.setVAndFlag .resultThenFlag x (s.getV y - s.getV x) (notBorrowFlag (s.getV y) (s.getV x))
  | .shlVxVy x _ => t = s.advance.setVAndFlag .flagThenResult x (s.getV x <<< 1) (shiftedOutHigh (s.getV x))
  | .ldINnn nnn => t = s.advance.setI (addrNnn nnn)
  | .jpV0Nnn nnn => t = s.advance.setPC (zextByte (s.getV 0) + addrNnn nnn)
  | .rndVxNn x nn => t = (rndWith (Config.rand8 s.draws) x nn s).nextDraw
  | .drwVxVyN x y n => (n.val = 0 ∨ s.idx.toNat + n.val ≤ 0x1000) ∧
    t = { s.advance with fb := drawPixels s.params.drawMode s.fb (s.spriteAt x y n.val) }.setV VF
      (flagByte (collides s.fb (s.spriteAt x y n.val)))
  | .skpVx x => ∃ h : (s.getV x).toNat < 16, t = s.advance.skipIf (s.key[(s.getV x).toNat])
  | .sknpVx x => ∃ h : (s.getV x).toNat < 16, t = s.advance.skipIf (!s.key[(s.getV x).toNat])
  | .ldVxDT x => t = s.advance.setV x s.dt
  | .ldVxK x =>
    (∃ k, s.firstKey = some k ∧ t = s.advance.setV x (BitVec.ofNat 8 k.val)) ∨ s.firstKey = none ∧ t = s
  | .ldDTVx x => t = { s.advance with dt := s.getV x }
  | .ldSTVx x => t = { s.advance with st := s.getV x }
  | .addIVx x => t = s.advance.setI (s.idx + zextByte (s.getV x))
  | .ldFVx x => t = s.advance.setI (glyphAddr (s.getV x))
  | .ldBVx x => s.idx.toNat + 3 ≤ 0x1000 ∧ (s.params.lowWriteFault = true → 0x200 ≤ s.idx.toNat) ∧
    t = s.advance.storeBytes s.idx.toNat (bcdDigits (s.getV x))
  | .ldMemVx x => s.idx.toNat + (x.val + 1) ≤ 0x1000 ∧ (s.params.lowWriteFault = true → 0x200 ≤ s.idx.toNat) ∧
    t = s.advance.storeBytes s.idx.toNat (s.regBytes x)
  | .ldVxMem x => s.idx.toNat + (x.val + 1) ≤ 0x1000 ∧ t = s.advance.loadRegs s.idx.toNat (regsUpTo x)

/-- Everything an instruction can do: the fault of its own check, or its effect on the state before the step. -/
theorem exec_cases {i : Instr} {s t : State} (h : exec i s = .next t) :
    (∃ c a, t = s.withFault c (some (encode i)) a ∧
      ((∃ nnn, i = .callNnn nnn ∧ s.sp.val = 16 ∧ c = .stackOverflow ∧ a = s.pc.toNat) ∨
       (i = .ret ∧ s.sp.val = 0 ∧ c = .stackUnderflow ∧ a = s.pc.toNat) ∨
       (∃ x, (i = .skpVx x ∨ i = .sknpVx x) ∧ (s.getV x).toNat > 0xF ∧ c = .keyIndexOutOfRange ∧ a = s.pc.toNat) ∨
       (∃ x y n, i = .drwVxVyN x y n ∧ s.readCheck n.val = some (c, a)) ∨
       (∃ x, i = .ldVxMem x ∧ s.readCheck (x.val + 1) = some (c, a)) ∨
       (∃ x, i = .ldBVx x ∧ s.writeCheck 3 = some (c, a)) ∨
       (∃ x, i = .ldMemVx x ∧ s.writeCheck (x.val + 1) = some (c, a)))) ∨
    Effect i s t := by
  cases i <;> simp only [exec] at h
  case ret =>
    rcases checked_cases h with ⟨hc, rfl⟩ | ⟨c, a, hc, rfl⟩
    · exact .inr ⟨(State.popCheck_eq s).1 hc, rfl⟩
    · refine .inl ⟨c, a, rfl, .inr (.inl ⟨rfl, ?_⟩)⟩
      unfold State.popCheck at hc; split at hc <;> simp_all
  case callNnn nnn =>
    rcases checked_cases h with ⟨hc, rfl⟩ | ⟨c, a, hc, rfl⟩
    · exact .inr ⟨(State.pushCheck_eq s).1 hc, rfl⟩
    · refine .inl ⟨c, a, rfl, .inl ⟨nnn, rfl, ?_⟩⟩
      unfold State.pushCheck at hc; split at hc <;> simp_all
  case skpVx x =>
    rcases checked_cases h with ⟨hc, rfl⟩ | ⟨c, a, hc, rfl⟩
    · by_cases hx : (s.getV x).toNat < 16
      · exact .inr ⟨hx, by simp [State.keyPressed, keyOf_of_lt hx]⟩
      · simp [State.keyCheck, keyOf_of_ge hx] at hc
    · refine .inl ⟨c, a, rfl, .inr (.inr (.inl ⟨x, .inl rfl, ?_⟩))⟩
      by_cases hx : (s.getV x).toNat < 16
      · simp [State.keyCheck, keyOf_of_lt hx] at hc
      · simp [State.keyCheck, keyOf_of_ge hx] at hc
        exact ⟨by omega, hc.1.symm, hc.2.symm⟩
  case sknpVx x =>
    rcases checked_cases h with ⟨hc, rfl⟩ | ⟨c, a, hc, rfl⟩
    · by_cases hx : (s.getV x).toNat < 16
      · exact .inr ⟨hx, by simp [State.keyPressed, keyOf_of_lt hx]⟩
      · simp [State.keyCheck, keyOf_of_ge hx] at hc
    · refine .inl ⟨c, a, rfl, .inr (.inr (.inl ⟨x, .inr rfl, ?_⟩))⟩
      by_cases hx : (s.getV x).toNat < 16
      · simp [State.keyCheck, keyOf_of_lt hx] at hc
      · simp [State.keyCheck, keyOf_of_ge hx] at hc
        exact ⟨by omega, hc.1.symm, hc.2.symm⟩
  case drwVxVyN x y n =>
    rcases checked_cases h with ⟨hc, rfl⟩ | ⟨c, a, hc, rfl⟩
    · exact .inr ⟨checkRange_read_none.1 hc, rfl⟩
    · exact .inl ⟨c, a, rfl, .inr (.inr (.inr (.inl ⟨x, y, n, rfl, hc⟩)))⟩
  case ldBVx x =>
    rcases checked_cases h with ⟨hc, rfl⟩ | ⟨c, a, hc, rfl⟩
    · have := (checkRange_write_none (by omega)).1 hc; exact .inr ⟨this.1, this.2, rfl⟩
    · exact .inl ⟨c, a, rfl, .inr (.inr (.inr (.inr (.inr (.inl ⟨x, rfl, hc⟩)))))⟩
  case ldMemVx x =>
    rcases checked_cases h with ⟨hc, rfl⟩ | ⟨c, a, hc, rfl⟩
    · have := (checkRange_write_none (by omega)).1 hc; exact .inr ⟨this.1, this.2, rfl⟩
    · exact .inl ⟨c, a, rfl, .inr (.inr (.inr (.inr (.inr (.inr ⟨x, rfl, hc⟩)))))⟩
  case ldVxMem x =>
    rcases checked_cases h with ⟨hc, rfl⟩ | ⟨c, a, hc, rfl⟩
    · have := checkRange_read_none.1 hc; exact .inr ⟨by omega, rfl⟩
    · exact .inl ⟨c, a, rfl, .inr (.inr (.inr (.inr (.inl ⟨x, rfl, hc⟩))))⟩
  case ldVxK x =>
    right
    unfold execLdVxK at h
    split at h
    · next k hk => exact .inl ⟨k, hk, by simpa using h.symm⟩
    · next hk => exact .inr ⟨hk, by simpa using h.symm⟩
  all_goals (right; simp only [execNop, execCls, execJpNnn, execSeVxNn, execSneVxNn, execSeVxVy, execSneVxVy, execLdVxNn,
    execAddVxNn, execLdVxVy, execOrVxVy, execAndVxVy, execXorVxVy, execAddVxVy, execSubVxVy,
    execShrVxVy, execSubnVxVy, execShlVxVy, execLdINnn, execJpV0Nnn, execRndVxNn, execLdVxDT,
    execLdDTVx, execLdSTVx, execAddIVx, execLdFVx] at h; injection h with h)
  all_goals exact h.symm

/-- Everything a step of a running machine can do. -/
theorem step_cases {s t : State} (hf : s.fault = none) (h : step s = .next t) :
    (s.fetch = none ∧ t = s.withFault .fetchOutOfBounds none s.pc.toNat) ∨
    (∃ w, s.fetch = some w ∧ decode w = none ∧ t = s.withFault .unknownOpcode (some w) s.pc.toNat) ∨
    ∃ w i, s.fetch = some w ∧ decode w = some i ∧ exec i s = .next t := by
  unfold step at h
  rw [hf] at h
  simp only at h
  split at h
  · next e => exact .inl ⟨e, by simpa [raise] using h.symm⟩
  · next w e =>
    split at h
    · next e' => exact .inr (.inl ⟨w, e, e', by simpa [raise] using h.symm⟩)
    · next i e' => exact .inr (.inr ⟨w, i, e, e', h⟩)

end Sys2Proof.Machine
end

