-- ==== Sys2Proof/Tests/Slice0.lean ====
section
/-! SUPPORT. The model's own tests. Every expected result is a row of spec/95_test_vectors.md (T1-T126, H1-H10), a
word written out from the encodings of 30_encoding.md R80, or a worked example of the rule named. -/

namespace Sys2Proof.Tests

open Sys2Proof.Machine Sys2Proof.Claims

/-- The state after one step of s with the word w at its PC; s itself if the step were to stop. -/
def after (w : Nat) (s : State) : State :=
  match step (s.withFetchWord 16 w) with
  | .next t => t
  | .fault _ => s
  | .refused _ => s

/-- An initialized machine ("Initialized" of 95_test_vectors.md). -/
abbrev s0 : State := State.reset

/-- V[x], V[y] and PC. -/
abbrev look (s : State) (x y : Reg) : Byte × Byte × Word := (s.getV x, s.getV y, s.pc)

/-! Well-formedness: a word with the fixed nibbles of no row is refused (R81), one for each leading nibble that has
unknown words; T2, T4, T5, T7, T8, T9. -/

theorem test_unknown_0 : wordWellFormed 0x0001 = false ∧ wordWellFormed 0x0123 = false := by decide
theorem test_unknown_5 : wordWellFormed 0x5121 = false := by decide
theorem test_unknown_8 : wordWellFormed 0x8008 = false ∧ wordWellFormed 0x800F = false := by decide
theorem test_unknown_9 : wordWellFormed 0x9121 = false := by decide
theorem test_unknown_E : wordWellFormed 0xE1A0 = false := by decide
theorem test_unknown_F : wordWellFormed 0xF1FF = false := by decide
theorem test_known_words : wordWellFormed 0x00E0 = true ∧ wordWellFormed 0x84A6 = true := by decide
theorem test_row_count : opcodeRows.length = 35 := by decide

/-! Decoding: for every row a word written out from the row's bits in R80. -/

theorem test_decode_control :
    decode 0b0000000000000000 = some .nop ∧ decode 0b0000000011101110 = some .ret ∧
    decode 0b0001001000110100 = some (.jpNnn 0x234) ∧ decode 0b0010001000010000 = some (.callNnn 0x210) ∧
    decode 0b1011001100000000 = some (.jpV0Nnn 0x300) := by decide

theorem test_decode_skips :
    decode 0b0011001100010010 = some (.seVxNn 3 0x12) ∧ decode 0b0100001100010010 = some (.sneVxNn 3 0x12) ∧
    decode 0b0101000100100000 = some (.seVxVy 1 2) ∧ decode 0b1001000100100000 = some (.sneVxVy 1 2) := by decide

theorem test_decode_alu :
    decode 0b0110101001000010 = some (.ldVxNn 0xA 0x42) ∧ decode 0b0111001000000101 = some (.addVxNn 2 0x05) ∧
    decode 0b1000000101010000 = some (.ldVxVy 1 5) ∧ decode 0b1000000000010001 = some (.orVxVy 0 1) ∧
    decode 0b1000000000010010 = some (.andVxVy 0 1) ∧ decode 0b1000000000010011 = some (.xorVxVy 0 1) ∧
    decode 0b1100001100001111 = some (.rndVxNn 3 0x0F) := by decide

theorem test_decode_flags :
    decode 0b1000000000010100 = some (.addVxVy 0 1) ∧ decode 0b1000000000010101 = some (.subVxVy 0 1) ∧
    decode 0b1000010010100110 = some (.shrVxVy 4 0xA) ∧ decode 0b1000000000010111 = some (.subnVxVy 0 1) ∧
    decode 0b1000010000001110 = some (.shlVxVy 4 0) := by decide

theorem test_decode_index :
    decode 0b1010001100000000 = some (.ldINnn 0x300) ∧ decode 0b1111001000011110 = some (.addIVx 2) ∧
    decode 0b1111000000101001 = some (.ldFVx 0) ∧ decode 0b1111000000110011 = some (.ldBVx 0) ∧
    decode 0b1111001001010101 = some (.ldMemVx 2) ∧ decode 0b1111001001100101 = some (.ldVxMem 2) := by decide

theorem test_decode_display :
    decode 0b0000000011100000 = some .cls ∧ decode 0b1101101010110101 = some (.drwVxVyN 0xA 0xB 5) := by decide

theorem test_decode_keypad :
    decode 0b1110000110011110 = some (.skpVx 1) ∧ decode 0b1110000110100001 = some (.sknpVx 1) ∧
    decode 0b1111001100000111 = some (.ldVxDT 3) ∧ decode 0b1111001000001010 = some (.ldVxK 2) ∧
    decode 0b1111000000010101 = some (.ldDTVx 0) ∧ decode 0b1111000000011000 = some (.ldSTVx 0) := by decide

theorem test_decode_unknown : decode 0x0123 = none ∧ decode 0x5121 = none ∧ decode 0xF1FF = none := by decide

/-- The table word 0x6A42 laid out big-endian is 6A 42 (R57). -/
theorem test_decode_table_word : decodeTableWord 16 0x6A42 = some (.ldVxNn 0xA 0x42) := by decide

/-! L2.1 Fetch, decode and PC advance. -/

theorem test_T1 : (after 0x0000 s0).pc = 0x202 ∧ (after 0x0000 s0).fault = none := by decide
theorem test_T2 : (after 0x0001 s0).fault = some ⟨.unknownOpcode, some 0x0001, 0x200, 0x200⟩ := by decide
theorem test_T10 : (after 0x0000 (s0.setPC 0xFFE)).pc = 0x1000 := by decide
theorem test_T11 : step (s0.setPC 0xFFF) = .next { s0.setPC 0xFFF with fault := some ⟨.fetchOutOfBounds, none, 0xFFF, 0xFFF⟩ } := rfl
theorem test_T13 : (after 0x0000 (s0.setPC 0x301)).pc = 0x303 := by decide

/-! L2.2 Control flow. -/

/-- A machine with one entry on its stack. -/
abbrev oneEntry : State := { s0.setPC 0x212 with sp := 1, stack := s0.stack.set 0 0x206 }

theorem test_T14 : (after 0x1234 s0).pc = 0x234 := by decide
theorem test_T17 : (after 0x2210 s0).pc = 0x210 ∧ (after 0x2210 s0).sp = 1 ∧ (after 0x2210 s0).stack[0] = 0x202 := by decide
theorem test_T18_T19 : (after 0x2300 { s0 with sp := 15 }).stack[15] = 0x202 ∧
    (after 0x2300 { s0 with sp := 16 }).fault = some ⟨.stackOverflow, some 0x2300, 0x200, 0x200⟩ := by decide
theorem test_T20 : (after 0x00EE oneEntry).pc = 0x206 ∧ (after 0x00EE oneEntry).sp = 0 := by decide
theorem test_T21 : (after 0x00EE s0).fault = some ⟨.stackUnderflow, some 0x00EE, 0x200, 0x200⟩ := by decide
theorem test_T22_T23 : (after 0x3312 (s0.setV 3 0x12)).pc = 0x204 ∧ (after 0x3312 (s0.setV 3 0x13)).pc = 0x202 := by decide
theorem test_T24_T25 : (after 0x4312 (s0.setV 3 0x13)).pc = 0x204 ∧ (after 0x4312 (s0.setV 3 0x12)).pc = 0x202 := by decide
theorem test_T26_T27 : (after 0x5120 ((s0.setV 1 7).setV 2 7)).pc = 0x204 ∧
    (after 0x5120 ((s0.setV 1 7).setV 2 8)).pc = 0x202 := by decide
theorem test_T29_T30 : (after 0x9120 ((s0.setV 1 7).setV 2 8)).pc = 0x204 ∧ (after 0x9110 s0).pc = 0x202 := by decide
theorem test_T33_T34 : (after 0xBFFF (s0.setV 0 0xFF)).pc = 0x10FE ∧
    (after 0xB5FF ((s0.setV 0 1).setV 5 9)).pc = 0x600 := by decide

/-! L2.3 Register and arithmetic. -/

theorem test_T36 : look (after 0x6A42 s0) 0xA 0xF = (0x42, 0, 0x202) := by decide
theorem test_T38_T39 : look (after 0x7201 ((s0.setV 2 0xFF).setV VF 0xAA)) 2 0xF = (0, 0xAA, 0x202) ∧
    look (after 0x7F01 (s0.setV VF 0xFF)) 0xF 0 = (0, 0, 0x202) := by decide
theorem test_T40 : look (after 0x8150 (s0.setV 5 0x33)) 1 5 = (0x33, 0x33, 0x202) := by decide
theorem test_T41 : look (after 0x8011 (((s0.setV 0 0xF0).setV 1 0x0F).setV VF 0x55)) 0 0xF = (0xFF, 0x55, 0x202) := by decide
theorem test_T42 : look (after 0x8012 ((s0.setV 0 0xF0).setV 1 0x3C)) 0 0xF = (0x30, 0, 0x202) := by decide
theorem test_T43 : look (after 0x8013 ((s0.setV 0 0xF0).setV 1 0x3C)) 0 0xF = (0xCC, 0, 0x202) := by decide
theorem test_T46_T49 : look (after 0x8014 (((s0.setV 0 0x7F).setV 1 0x80).setV VF 1)) 0 0xF = (0xFF, 0, 0x202) ∧
    look (after 0x80F4 ((s0.setV 0 0x10).setV VF 0xF0)) 0 0xF = (0, 1, 0x202) := by decide
theorem test_T50 : (after 0x8F14 ((s0.setV VF 0xFF).setV 1 2)).getV VF = 1 := by decide
theorem test_T53_T54 : look (after 0x8015 ((s0.setV 0 5).setV 1 5)) 0 0xF = (0, 1, 0x202) ∧
    look (after 0x8015 ((s0.setV 1 1).setV VF 0xAA)) 0 0xF = (0xFF, 0, 0x202) := by decide
theorem test_T57_T58 : look (after 0x8017 ((s0.setV 0 3).setV 1 5)) 0 0xF = (2, 1, 0x202) ∧
    look (after 0x8017 ((s0.setV 0 1).setV VF 0xAA)) 0 0xF = (0xFF, 0, 0x202) := by decide
theorem test_T61_T62 : look (after 0x84A6 ((s0.setV 4 5).setV 0xA 0xFF)) 4 0xF = (2, 1, 0x202) ∧
    look (after 0x8406 ((s0.setV 4 0x80).setV VF 0xAA)) 4 0xF = (0x40, 0, 0x202) := by decide
theorem test_T64_T65 : (after 0x8F06 (s0.setV VF 2)).getV VF = 1 ∧
    (after 0x8F06 { s0.setV VF 2 with params := { defaultParams with vfAlias := .flagLast } }).getV VF = 0 := by decide
theorem test_T66_T68 : look (after 0x840E (s0.setV 4 0x81)) 4 0xF = (2, 1, 0x202) ∧
    look (after 0x840E ((s0.setV 4 0x7F).setV VF 1)) 4 0xF = (0xFE, 0, 0x202) := by decide
theorem test_T69_T70 : (after 0x8F0E (s0.setV VF 0x81)).getV VF = 2 ∧
    (after 0x8F0E { s0.setV VF 0x81 with params := { defaultParams with vfAlias := .flagLast } }).getV VF = 1 := by decide
theorem test_T71 : look (rndWith 0xA7 3 0x0F s0) 3 0xF = (0x07, 0, 0x202) := by decide

/-! L2.4 Index register and memory. -/

/-- A machine with its index register set. -/
abbrev withI (s : State) (w : Word) : State := s.setI w

/-- The three bytes from an address. -/
abbrev three (s : State) (a : Nat) : List Byte := s.readBytes a 3

theorem test_T75 : (after 0xAFFF s0).idx = 0xFFF ∧ (after 0xAFFF s0).pc = 0x202 := by decide
theorem test_T77_T78 : (after 0xF21E (withI (s0.setV 2 1) 0xFFF)).idx = 0x1000 ∧
    (after 0xF21E (withI (s0.setV 2 2) 0xFFFF)).idx = 1 := by decide
theorem test_T80_T82 : (after 0xF029 (s0.setV 0 0xA)).idx = 0x032 ∧ (after 0xF029 (s0.setV 0 0xFF)).idx = 0x4FB := by decide
theorem test_T83_T84 : three (after 0xF033 (withI (s0.setV 0 0xEA) 0x300)) 0x300 = [2, 3, 4] ∧
    three (after 0xF033 ((withI (s0.setV 0 7) 0x300).storeBytes 0x300 [0xFF, 0xFF, 0xFF])) 0x300 = [0, 0, 7] := by decide
theorem test_T88_T91 : (after 0xF033 (withI (s0.setV 0 0xFF) 0xFFE)).fault =
      some ⟨.memWriteOutOfBounds, some 0xF033, 0x200, 0x1000⟩ ∧
    (after 0xF233 (withI (s0.setV 0 1) 0x1FE)).fault = some ⟨.protectedWrite, some 0xF233, 0x200, 0x1FE⟩ := by decide
theorem test_T90 : three (after 0xF033 { withI (s0.setV 0 1) 0x100 with params := { defaultParams with lowWriteFault := false } })
    0x100 = [0, 0, 1] := by decide
theorem test_T92 : three (after 0xF255 (withI (((s0.setV 0 1).setV 1 2).setV 2 3) 0x400)) 0x400 = [1, 2, 3] := by decide
theorem test_T95_T96 : (after 0xFF55 (withI s0 0xFF1)).fault = some ⟨.memWriteOutOfBounds, some 0xFF55, 0x200, 0x1000⟩ ∧
    (after 0xFF55 (withI (s0.setV VF 2) 0xFF0)).readByte 0xFFF = 2 := by decide
theorem test_T97 : (after 0xF265 ((withI s0 0x400).storeBytes 0x400 [1, 2, 3])).regBytes 3 = [1, 2, 3, 0] := by decide
theorem test_T98_T100 : (after 0xF465 s0).regBytes 4 = [0xF0, 0x90, 0x90, 0x90, 0xF0] ∧
    (after 0xF065 (withI s0 0x1000)).fault = some ⟨.memReadOutOfBounds, some 0xF065, 0x200, 0x1000⟩ := by decide

/-! L2.5 Framebuffer. -/

/-- The columns that are on in a row of the screen. -/
def litColumns (fb : Frame) (py : Fin 32) : List (Fin 64) := (List.finRange 64).filter (fun px => fb.pixel (px, py))

/-- The sprite of the source's example at 0x300, and the screen after its first draw. -/
abbrev barSprite : State := (withI s0 0x300).storeBytes 0x300 [0xF0]
abbrev barDrawn : State :=
  { barSprite with fb := drawPixels .forceOn blankFrame [(0, 0), (1, 0), (2, 0), (3, 0)] }

theorem test_T101 : (after 0x00E0 { s0 with fb := (s0.fb.setPixel (0, 0) true).setPixel (63, 31) true }).fb = blankFrame := by decide
theorem test_T102_T103 : litColumns (after 0xD001 barSprite).fb 0 = [0, 1, 2, 3] ∧ (after 0xD001 barSprite).getV VF = 0 ∧
    litColumns (after 0xD001 barDrawn).fb 0 = [0, 1, 2, 3] ∧ (after 0xD001 barDrawn).getV VF = 1 := by decide
theorem test_T104 : (after 0xD001 { barDrawn with params := { defaultParams with drawMode := .xor } }).fb = blankFrame ∧
    (after 0xD001 { barDrawn with params := { defaultParams with drawMode := .xor } }).getV VF = 1 := by decide
theorem test_T105 : litColumns (after 0xD011 (((withI s0 0x300).storeBytes 0x300 [0x81]).setV 0 0x3E |>.setV 1 0x1F)).fb 31 = [5, 62] := by decide
theorem test_T110_T111 : (after 0xD000 ((withI s0 0x5000).setV VF 1)).getV VF = 0 ∧
    (after 0xD002 (withI s0 0xFFF)).fault = some ⟨.memReadOutOfBounds, some 0xD002, 0x200, 0x1000⟩ := by decide
theorem test_T112 : litColumns (after 0xDF01 (((withI s0 0x300).storeBytes 0x300 [0x80]).setV 0 5 |>.setV VF 3)).fb 5 = [3] := by decide
theorem test_T113 : litColumns (after 0xD005 s0).fb 0 = [0, 1, 2, 3] ∧ litColumns (after 0xD005 s0).fb 2 = [0, 3] := by decide

/-! L2.6 Keypad and timers. -/

/-- A machine with keys pressed by the host. -/
abbrev keyed (s : State) (ks : List Nat) : State := ks.foldl (fun t k => t.setKey k true) s

theorem test_T114_T118 : (after 0xE19E (keyed (s0.setV 1 5) [5])).pc = 0x204 ∧
    (after 0xE19E (s0.setV 1 0x10)).fault = some ⟨.keyIndexOutOfRange, some 0xE19E, 0x200, 0x200⟩ := by decide
theorem test_T116_T117 : (after 0xE1A1 (s0.setV 1 5)).pc = 0x204 ∧ (after 0xE1A1 (keyed (s0.setV 1 5) [5])).pc = 0x202 := by decide
theorem test_T120 : look (after 0xF307 { s0 with dt := 0x3C }) 3 0 = (0x3C, 0, 0x202) := by decide
theorem test_T121_T122 : (after 0xF20A s0).pc = 0x200 ∧ look (after 0xF20A (keyed s0 [3, 9])) 2 0 = (3, 0, 0x202) := by decide
theorem test_T124 : (after 0xF015 (s0.setV 0 0x3C)).dt = 0x3C := by decide
theorem test_T125_T126 : (after 0xF018 (s0.setV 0 2)).st = 2 ∧ (after 0xF018 { s0 with st := 5 }).st = 0 := by decide

/-! L2.7 Host transactions. -/

theorem test_H1 : ({ s0 with dt := 2, st := 1 }.tickTimers).dt = 1 ∧ ({ s0 with dt := 2, st := 1 }.tickTimers).st = 0 ∧
    { s0 with dt := 2, st := 1 }.soundEnd = some true := by decide
theorem test_H2 : s0.tickTimers = s0 ∧ s0.soundEnd = some false := by decide
theorem test_H5 : (s0.setKey 16 true).fault = some ⟨.hostKeyIndexOutOfRange, none, 0x200, 0x010⟩ := by decide
theorem test_H8 : s0.load [] = s0 := by decide

/-- An infinite schedule (R266): one key press and then tick_timers for ever; H2 of 95_test_vectors.md at each tick. -/
theorem test_schedule : runSchedule (fun n => if n = 0 then .setKey 15 true else .tickTimers) s0 3 =
    .next (s0.setKey 15 true) := rfl

/-- The machine reads its reset content, the default FONT among it (R41, R52). -/
theorem test_reset_memory : s0.readBytes 0x32 5 = [0xF0, 0x90, 0xF0, 0x90, 0x90] ∧ s0.readByte 0x50 = 0 := by decide

/-! Witnesses: for each obligation with hypotheses, a concrete state and operands that meet them together, for each
clause at a boundary of its range. -/

/-- The initialized machine with the word w where it fetches next. -/
abbrev at200 (w : Nat) : State := s0.withFetchWord 16 w

/-- The state a transaction leaves; s itself if it were to stop. -/
def left (tr : Transaction) (s : State) : State :=
  match transact tr s with
  | .next t => t
  | .fault _ => s
  | .refused _ => s

/-- A transaction that answers a next state is one with `left` as that state. -/
theorem transact_left (tr : Transaction) (s : State) (h : ∃ t, transact tr s = .next t) :
    transact tr s = .next (left tr s) := by
  obtain ⟨t, h⟩ := h
  simp [left, h]

/-- A parameter record with protection off, and one with each other choice changed. -/
abbrev lowOff : Params := { defaultParams with lowWriteFault := false }
abbrev withAlias (a : VfAlias) : State := { s0 with params := { defaultParams with vfAlias := a } }
abbrev withMode (m : DrawMode) : State := { s0 with params := { defaultParams with drawMode := m } }

/-- A machine that has faulted: 00EE on an empty stack (T21). -/
abbrev halted : State := after 0x00EE s0

theorem witness_EncodeOfDecodeIsTheWord : decode 0x84A6 = some (.shrVxVy 4 0xA) := by decide

theorem witness_DecodeReturnsTheUniqueMatchingRow :
    (⟨0x00EE, 0xFFFF⟩ ∈ opcodeRows ∧ (0x00EE : Word) &&& 0xFFFF = 0x00EE) ∧
    ((at200 0xF1FF).fault = none ∧ (at200 0xF1FF).fetch = some 0xF1FF ∧
      ∀ r ∈ opcodeRows, (0xF1FF : Word) &&& r.mask ≠ r.bits) := by decide

theorem witness_StepRunsTheDecodedInstruction :
    (s0.setPC 0xFFE).fault = none ∧ (s0.setPC 0xFFE).pc.toNat ≤ 0xFFE ∧
    decode ((s0.setPC 0xFFE).readByte 0xFFE ++ (s0.setPC 0xFFE).readByte 0xFFF) = some .nop := by decide

theorem witness_FetchSucceedsExactlyInsideMemory :
    (s0.setPC 0xFFE).pc.toNat ≤ 0xFFE ∧ (s0.setPC 0xFFF).pc.toNat > 0xFFE ∧ (s0.setPC 0xFFF).fault = none := by decide

theorem witness_UnknownOpcodeIsRaisedExactlyWhenFetched :
    (at200 0x0001).fault = none ∧ (at200 0x0001).fetch = some 0x0001 ∧ decode 0x0001 = none ∧
    ((left .step (at200 0x0001)).fault.map (·.code)) = some .unknownOpcode := by decide

theorem witness_HaltedMachineIsFrozen :
    halted.fault = some ⟨.stackUnderflow, some 0x00EE, 0x200, 0x200⟩ ∧ Transaction.step ≠ .reset ∧
    transact .reset halted = .next halted.afterReset ∧ halted.afterReset.fault = none := ⟨by decide, by decide, rfl, rfl⟩

theorem witness_FaultsLeaveNoPartialEffect :
    (at200 0x00EE).fault = none ∧ (left .step (at200 0x00EE)).fault ≠ none ∧
    (at200 0xF155).fault = none ∧ (left .step ((at200 0xF155).setI 0x1FF)).fault ≠ none := by decide

/-- The code a transaction raises. -/
abbrev raised (tr : Transaction) (s : State) : Option Fault := (left tr s).fault.map (·.code)

theorem witness_FaultRecordsNameTheirCause_fetch :
    raised .step (at200 0x0001) = some .unknownOpcode ∧ raised .step (s0.setPC 0xFFF) = some .fetchOutOfBounds := by decide

theorem witness_FaultRecordsNameTheirCause_memory :
    raised .step ((at200 0xF065).setI 0x1000) = some .memReadOutOfBounds ∧
    raised .step ((at200 0xF033).setI 0xFFE) = some .memWriteOutOfBounds ∧
    raised .step ((at200 0xF055).setI 0x1FF) = some .protectedWrite := by decide

theorem witness_FaultRecordsNameTheirCause_stack :
    raised .step { at200 0x2300 with sp := 16 } = some .stackOverflow ∧
    raised .step (at200 0x00EE) = some .stackUnderflow ∧
    raised .step ((at200 0xE19E).setV 1 0x10) = some .keyIndexOutOfRange := by decide

/-- An image one byte longer than the 3584 that fit (R282). -/
abbrev tooLong : List Byte := List.replicate 3585 0

theorem witness_FaultRecordsNameTheirCause_host :
    raised (.setKey 16 true) s0 = some .hostKeyIndexOutOfRange ∧ raised (.load tooLong) s0 = some .loadTooLarge := by
  refine ⟨by decide, ?_⟩
  simp [raised, left, transact, State.load, State.reset, State.initial, State.withFault, Config.programBase, Config.memSize]

theorem witness_PcAfterStepFollowsTheTable :
    ((at200 0x00EE).fault = none ∧ (left .step (at200 0x00EE)).fault ≠ none) ∧
    ((at200 0x3300).fault = none ∧ (at200 0x3300).fetch = some 0x3300 ∧ decode 0x3300 = some (.seVxNn 3 0) ∧
      (left .step (at200 0x3300)).fault = none) := by decide

theorem witness_RegistersChangeOnlyByTheirWriters : (left .step (at200 0x6A42)).getV 0xA ≠ (at200 0x6A42).getV 0xA := by decide

theorem witness_StackMovesOnlyByCallAndReturn :
    (left .step (at200 0x2210)).sp ≠ (at200 0x2210).sp ∧ (left .step (at200 0x2210)).stack ≠ (at200 0x2210).stack := by decide

theorem witness_ScreenChangesOnlyByClearAndDraw : (left .step (at200 0xD005)).fb ≠ (at200 0xD005).fb := by decide

theorem witness_TimersAndKeysChangeOnlyByTheirWriters :
    (left .tickTimers { s0 with dt := 1 }).dt ≠ 1 ∧ (left .tickTimers { s0 with st := 1 }).st ≠ 1 ∧
    (left (.setKey 15 true) s0).key ≠ s0.key := by decide

theorem witness_IndexChangesOnlyByItsWriters : (left .step (at200 0xAFFF)).idx ≠ (at200 0xAFFF).idx := by decide

theorem witness_MemoryChangesOnlyByItsWriters :
    (left .step (((at200 0xF055).setI 0x300).setV 0 7)).readByte 0x300 ≠ (at200 0xF055).readByte 0x300 := by decide

/-- The initialized machine meets the invariant: its memory lists nothing, PC is 0x200, its stack is zero. -/
theorem reset_inv : s0.Inv :=
  ⟨by decide, by decide, by decide, fun _ h => by simp [State.reset, State.initial] at h⟩

theorem witness_StepKeepsTheMachineInvariant : s0.Inv ∧ step s0 = .next (left .step s0) :=
  ⟨reset_inv, transact_left .step s0 ⟨s0.advance, rfl⟩⟩

theorem witness_EveryHostRunKeepsTheMachineInvariant :
    s0.Inv ∧ runHost [.setKey 15 true, .reset] s0 = .next s0 := ⟨reset_inv, rfl⟩

theorem witness_NoRunWritesLowMemory :
    s0.Inv ∧ s0.params.lowWriteFault = true ∧ s0.lowMemoryIntact ∧ runHost [.tickTimers, .display] s0 = .next s0 :=
  ⟨reset_inv, rfl, fun _ _ => rfl, rfl⟩

theorem witness_JumpToSelfIsAFixedPoint :
    (0x200 : Imm12).toNat = (at200 0x1200).pc.toNat ∧ (at200 0x1200).fetch = some (0x1#4 ++ (0x200 : Imm12)) := by decide

theorem witness_CallPushesTheReturnAddress :
    ({ s0 with sp := 15 } : State).sp.val < 16 ∧ ({ s0 with sp := 16 } : State).sp.val = 16 := by decide

theorem witness_ReturnPopsThePc :
    ({ s0 with sp := 16 } : State).sp.val = (15 : Fin 16).val + 1 ∧
    ({ s0 with sp := 1 } : State).sp.val = (0 : Fin 16).val + 1 ∧ s0.sp.val = 0 := by decide

theorem witness_ReturnUndoesCall : ({ s0 with sp := 15 } : State).sp.val < 16 := by decide

theorem witness_SkipsReadTheKeypad :
    ((s0.setV 1 0x0F).getV 1).toNat = (15 : Key).val ∧ ((s0.setV 1 0x10).getV 1).toNat > 0xF := by decide

/-- The cases of AddSetsCarry, SubtractionsSetNotBorrow and ShiftsMoveOneBitIntoVf: a destination other than VF, and VF
under each VF_ALIAS that fixes it. -/
theorem witness_WritesResultAndFlag :
    (0 : Reg) ≠ VF ∧ (withAlias .textOrder).params.vfAlias = .textOrder ∧
    (withAlias .flagLast).params.vfAlias = .flagLast ∧ (withAlias .flagLast).params.vfAlias ≠ .unconstrained := by decide

theorem witness_UnconstrainedVfIsADraw : (withAlias .unconstrained).params.vfAlias = .unconstrained := by decide

/-- Fx33 at both ends of the range it may write, and anywhere with the protection off. -/
theorem witness_BcdStoresThreeDigits :
    ((s0.setI 0xFFD).memWf ∧ (s0.setI 0xFFD).idx.toNat + 2 ≤ 0xFFF ∧ s0.params.lowWriteFault = true ∧
      0x200 ≤ (s0.setI 0xFFD).idx.toNat) ∧
    ((s0.setI 0x200).memWf ∧ 0x200 ≤ (s0.setI 0x200).idx.toNat) ∧
    (({ s0 with params := lowOff } : State).memWf ∧ ({ s0 with params := lowOff } : State).idx.toNat + 2 ≤ 0xFFF ∧
      lowOff.lowWriteFault = false) ∧
    (s0.setI 0xFFE).idx.toNat + 2 > 0xFFF ∧ (s0.setI 0x1FF).idx.toNat < 0x200 := by decide

theorem witness_StoreRegistersWritesTheRange :
    ((s0.setI 0xFF0).memWf ∧ (s0.setI 0xFF0).idx.toNat + (15 : Reg).val ≤ 0xFFF ∧ 0x200 ≤ (s0.setI 0xFF0).idx.toNat) ∧
    ((s0.setI 0x200).memWf ∧ (s0.setI 0x200).idx.toNat + (0 : Reg).val ≤ 0xFFF ∧ 0x200 ≤ (s0.setI 0x200).idx.toNat) ∧
    (s0.setI 0xFF1).idx.toNat + (15 : Reg).val > 0xFFF ∧
    (s0.params.lowWriteFault = true ∧ (s0.setI 0x1FF).idx.toNat < 0x200) := by decide

theorem witness_LoadRegistersReadsTheRange :
    (s0.setI 0xFF0).idx.toNat + (15 : Reg).val ≤ 0xFFF ∧ (s0.setI 0xFFF).idx.toNat + (0 : Reg).val ≤ 0xFFF ∧
    (s0.setI 0xFF1).idx.toNat + (15 : Reg).val > 0xFFF ∧ (s0.setI 0x1000).idx.toNat + (0 : Reg).val > 0xFFF := by decide

theorem witness_RangeFaultsNameTheFirstBadAddress :
    s0.fault = none ∧ accessOf (.ldBVx 0) = some (true, 3) ∧ accessOf (.drwVxVyN 0 0 0) = some (false, 0) ∧
    raised .step ((at200 0xFF65).setI 0xFF1) = some .memReadOutOfBounds ∧
    raised .step ((at200 0xFF65).setI 0xFF0) = none ∧
    raised .step ((at200 0xF033).setI 0x200) = none := by decide

theorem witness_CheckRangeFindsTheFirstFailingByte :
    checkRange true true 0x200 1 = none ∧ checkRange true true 0x1FF 3 = some (.protectedWrite, 0x1FF) ∧
    checkRange true true 0xFFE 3 = some (.memWriteOutOfBounds, 0x1000) ∧
    checkRange true false 0xFFF 2 = some (.memReadOutOfBounds, 0x1000) := by decide

/-- V0..V1 hold 0x12, 0x34 and I is 0x300. -/
abbrev twoRegs : State := ((s0.setI 0x300).setV 0 0x12).setV 1 0x34

theorem witness_StoreThenLoadReproducesRegisters :
    (Instr.ldVxMem 1 ∈ [Instr.ldBVx 1, .ldMemVx 1, .ldVxMem 1, .drwVxVyN 1 0 5]) ∧ twoRegs.memWf ∧
    ∃ t, exec (.ldMemVx 1) twoRegs = .next t ∧ t.fault = none ∧
      (s0.setI 0x300 |>.storeBytes 0x300 [0x12, 0x34]).idx = t.idx ∧
      ∀ a, (s0.setI 0x300 |>.storeBytes 0x300 [0x12, 0x34]).readByte a = t.readByte a :=
  ⟨by decide, by decide, _, rfl, rfl, rfl, fun _ => rfl⟩

theorem witness_StoredBytesAreFetched_registers :
    twoRegs.memWf ∧ (0 : Reg).val + 1 ≤ (1 : Reg).val ∧ (0x300 : Word).toNat = twoRegs.idx.toNat + (0 : Reg).val ∧
    ∃ t, exec (.ldMemVx 1) twoRegs = .next t ∧ t.fault = none := ⟨by decide, by decide, by decide, _, rfl, rfl⟩

theorem witness_StoredBytesAreFetched_digits :
    twoRegs.memWf ∧ ∃ t, exec (.ldBVx 0) twoRegs = .next t ∧ t.fault = none := ⟨by decide, _, rfl, rfl⟩

theorem witness_StoredBytesAreFetched_image :
    s0.memWf ∧ 0 + 1 < ([0x12, 0x34] : List Byte).length ∧ (0x200 : Word).toNat = 0x200 + 0 ∧
    ∃ t, transact (.load [0x12, 0x34]) s0 = .next t ∧ t.fault = none := ⟨by decide, by decide, by decide, _, rfl, rfl⟩

/-- The one-pixel sprite of T112 at 0x300: its pixel (0, 0) is covered, and it is on in the second state only. -/
abbrev dot : State := (s0.setI 0x300).storeBytes 0x300 [0x80]
abbrev dotOn : State := { dot with fb := Frame.setPixel blankFrame (0, 0) true }

theorem witness_DrawUpdatesCoveredPixels :
    (s0.setI 0xFF1).idx.toNat + (15 : Fin 16).val - 1 ≤ 0xFFF ∧ (0 : Fin 16).val = 0 ∧
    Covered dot 0 0 1 (0, 0) ∧ ¬ Covered dot 0 0 0 (0, 0) ∧
    (∃ p, Covered dotOn 0 0 1 p ∧ dotOn.fb.pixel p = true) ∧
    (∀ p, Covered dot 0 0 1 p → dot.fb.pixel p = false) ∧
    (withMode .forceOn).params.drawMode = .forceOn ∧ (withMode .xor).params.drawMode = .xor ∧
    (1 ≤ (1 : Fin 16).val ∧ (s0.setI 0x1000).idx.toNat + (1 : Fin 16).val - 1 > 0xFFF) := by
  refine ⟨by decide, by decide, ⟨0, by decide, 0, by decide, by decide⟩, ?_, ⟨(0, 0), ⟨0, by decide, 0, by decide, by decide⟩, by decide⟩, ?_, rfl, rfl, by decide⟩
  · rintro ⟨_, h, _⟩
    exact Nat.not_lt_zero _ h
  · intro p _
    simp [dot, Frame.pixel, State.storeBytes, State.writeByte, State.setI, State.reset, State.initial]

theorem witness_CollisionDoesNotDependOnDrawMode :
    (∃ t, exec (.drwVxVyN 0 0 1) dotOn = .next t) ∧
    ∃ u, exec (.drwVxVyN 0 0 1) { dotOn with params := { dotOn.params with drawMode := .xor } } = .next u :=
  ⟨⟨_, rfl⟩, ⟨_, rfl⟩⟩

theorem witness_XorDrawTwiceRestoresTheScreen :
    ({ dot with params := { defaultParams with drawMode := .xor } } : State).params.drawMode = .xor ∧
    (0 : Reg) ≠ VF ∧ (1 : Reg) ≠ VF ∧
    ∃ t u, exec (.drwVxVyN 0 1 1) { dot with params := { defaultParams with drawMode := .xor } } = .next t ∧
      t.fault = none ∧ exec (.drwVxVyN 0 1 1) t = .next u := ⟨rfl, by decide, by decide, _, _, rfl, rfl, rfl⟩

theorem witness_SpriteBitsLandOnDistinctPixels :
    (14 < 15 ∧ 7 < 8) ∧ spriteDest 0xFF 0xFF 14 7 = spriteDest 0xFF 0xFF 14 7 := by decide

theorem witness_KeyWaitTakesTheLowestPressedKey :
    ((keyed s0 [15]).key[(15 : Key)] = true ∧ ∀ j : Key, j < 15 → (keyed s0 [15]).key[j] = false) ∧
    ((keyed s0 [0, 9]).key[(0 : Key)] = true ∧ ∀ j : Key, j < 0 → (keyed s0 [0, 9]).key[j] = false) ∧
    (∀ k : Key, s0.key[k] = false) := by decide

theorem witness_TickDecrementsNonzeroTimers : ({ s0 with dt := 0xFF, st := 1 } : State).fault = none ∧ halted.fault ≠ none := by decide

theorem witness_SetKeyWritesOneFlag : s0.fault = none ∧ halted.fault ≠ none ∧ (15 : Key).val = 15 ∧ 16 > 15 := by decide

theorem witness_LoadCopiesTheImage :
    halted.fault ≠ none ∧ s0.fault = none ∧ s0.memWf ∧ 0x200 + (List.replicate 3584 (0xFF : Byte)).length ≤ 4096 ∧
    0x200 + tooLong.length > 4096 := 
  ⟨by decide, rfl, by decide, by rw [List.length_replicate], by rw [List.length_replicate]; decide⟩

theorem witness_BootRunsTheFirstLoadedInstruction : 2 + (List.replicate 3582 (0xFF : Byte)).length ≤ 3584 := by
  rw [List.length_replicate]

theorem witness_CanonicalMemoriesThatReadAlikeAreEqual :
    Memory.wf defaultParams.font [(0x000, 0x01), (0xFFF, 0x05)] ∧
    Memory.wf defaultParams.font (Memory.write defaultParams.font [(0x000, 0x01), (0xFFF, 0x06)] 0xFFF 0x05) ∧
    ∀ a, Memory.read defaultParams.font [(0x000, 0x01), (0xFFF, 0x05)] a =
      Memory.read defaultParams.font (Memory.write defaultParams.font [(0x000, 0x01), (0xFFF, 0x06)] 0xFFF 0x05) a :=
  ⟨by decide, by decide, fun _ => rfl⟩

end Sys2Proof.Tests
end

/-! PROOFS: the state. What each operation of the state leaves unchanged, as frames that compose along the operations
of an instruction. -/

namespace Sys2Proof.Claims

open Sys2Proof.Machine

variable {ps : List Part} {s t u : State}

/-- What one part of the state holds is the same in s and t. -/
def Part.Kept (s t : State) : Part → Prop
  | .reg r => t.getV r = s.getV r
  | .index => t.idx = s.idx
  | .memory => ∀ a, t.readByte a = s.readByte a
  | .stack => t.sp = s.sp ∧ t.stack = s.stack
  | .delay => t.dt = s.dt
  | .sound => t.st = s.st
  | .screen => t.fb = s.fb
  | .draws => t.draws = s.draws

namespace KeepsAllBut

theorem kept (h : KeepsAllBut ps s t) {p : Part} (hp : p ∉ ps) : p.Kept s t := by
  cases p with
  | reg r => exact h.reg r hp
  | index => exact h.index hp
  | memory => exact h.memory hp
  | stack => exact h.stack hp
  | delay => exact h.delay hp
  | sound => exact h.sound hp
  | screen => exact h.screen hp
  | draws => exact h.draws hp

theorem refl (ps : List Part) (s : State) : KeepsAllBut ps s s where
  reg _ _ := rfl
  index _ := rfl
  memory _ _ := rfl
  stack _ := ⟨rfl, rfl⟩
  delay _ := rfl
  sound _ := rfl
  screen _ := rfl
  draws _ := rfl
  keys := rfl
  fault := rfl
  params := rfl

theorem trans (h : KeepsAllBut ps s t) (h' : KeepsAllBut ps t u) : KeepsAllBut ps s u where
  reg r hr := (h'.reg r hr).trans (h.reg r hr)
  index hp := (h'.index hp).trans (h.index hp)
  memory hp a := (h'.memory hp a).trans (h.memory hp a)
  stack hp := ⟨(h'.stack hp).1.trans (h.stack hp).1, (h'.stack hp).2.trans (h.stack hp).2⟩
  delay hp := (h'.delay hp).trans (h.delay hp)
  sound hp := (h'.sound hp).trans (h.sound hp)
  screen hp := (h'.screen hp).trans (h.screen hp)
  draws hp := (h'.draws hp).trans (h.draws hp)
  keys := h'.keys.trans h.keys
  fault := h'.fault.trans h.fault
  params := h'.params.trans h.params

/-! One frame for each operation of the state. -/

theorem advance (ps : List Part) (s : State) : KeepsAllBut ps s s.advance := { refl ps s with }

theorem setPC (w : Word) : KeepsAllBut ps s (s.setPC w) := { refl ps s with }

theorem skipIf (c : Bool) : KeepsAllBut ps s (s.skipIf c) := by
  cases c
  · exact refl ps s
  · exact { refl ps s with }

theorem setI (hp : .index ∈ ps) (w : Word) : KeepsAllBut ps s (s.setI w) :=
  { refl ps s with index := absurd hp }

theorem setV {x : Reg} (hp : .reg x ∈ ps) (b : Byte) : KeepsAllBut ps s (s.setV x b) :=
  { refl ps s with reg := fun _ hr => State.getV_setV_of_ne s b fun e => hr (e ▸ hp) }

theorem setDT (hp : .delay ∈ ps) (b : Byte) : KeepsAllBut ps s { s with dt := b } :=
  { refl ps s with delay := absurd hp }

theorem setST (hp : .sound ∈ ps) (b : Byte) : KeepsAllBut ps s { s with st := b } :=
  { refl ps s with sound := absurd hp }

theorem setFB (hp : .screen ∈ ps) (fb : Frame) : KeepsAllBut ps s { s with fb := fb } :=
  { refl ps s with screen := absurd hp }

theorem nextDraw (hp : .draws ∈ ps) : KeepsAllBut ps s s.nextDraw :=
  { refl ps s with draws := absurd hp }

theorem push (hp : .stack ∈ ps) (w : Word) : KeepsAllBut ps s (s.push w) := by
  unfold State.push
  split
  · exact { refl ps s with stack := absurd hp }
  · exact refl ps s

theorem popPC (hp : .stack ∈ ps) : KeepsAllBut ps s s.popPC := by
  unfold State.popPC
  split
  · exact { refl ps s with stack := absurd hp }
  · exact refl ps s

theorem storeBytes (hp : .memory ∈ ps) (base : Nat) (bs : List Byte) : KeepsAllBut ps s (s.storeBytes base bs) := by
  induction bs generalizing s base with
  | nil => exact refl ps s
  | cons b rest ih =>
    have hw : KeepsAllBut ps s (s.writeByte base b) := { refl ps s with memory := absurd hp }
    exact hw.trans (ih (base + 1))

theorem loadRegs {ks : List Reg} (hp : ∀ k ∈ ks, .reg k ∈ ps) (base : Nat) : KeepsAllBut ps s (s.loadRegs base ks) := by
  unfold State.loadRegs
  generalize s.readByte = g
  induction ks generalizing s with
  | nil => exact refl ps s
  | cons k rest ih =>
    exact (setV (hp k (by simp)) _).trans (ih fun j hj => hp j (by simp [hj]))

theorem setVAndFlag {x : Reg} (hx : .reg x ∈ ps) (hf : .reg VF ∈ ps) (hd : .draws ∈ ps) (o : ClauseOrder)
    (r g : Byte) : KeepsAllBut ps s (s.setVAndFlag o x r g) := by
  unfold State.setVAndFlag
  split
  · exact (setV hx r).trans (setV hf g)
  · exact (setV hf g).trans (setV hx r)
  · exact (setV hx r).trans (setV hf g)
  · split
    · exact (setV hf _).trans (nextDraw hd)
    · exact (setV hx r).trans (setV hf g)

end KeepsAllBut

/-! The frame of an instruction. -/

/-- The parts beside the registers that an instruction may change. -/
def otherPartsWritten : Instr → List Part
  | .cls | .drwVxVyN _ _ _ => [.screen]
  | .ret | .callNnn _ => [.stack]
  | .ldINnn _ | .addIVx _ | .ldFVx _ => [.index]
  | .ldBVx _ | .ldMemVx _ => [.memory]
  | .ldDTVx _ => [.delay]
  | .ldSTVx _ => [.sound]
  | .rndVxNn _ _ | .addVxVy _ _ | .subVxVy _ _ | .shrVxVy _ _ | .subnVxVy _ _ | .shlVxVy _ _ => [.draws]
  | _ => []

/-- The parts an instruction may change: the registers of R23's table, and the others. -/
def partsWritten (i : Instr) : List Part := (registersWritten i).map .reg ++ otherPartsWritten i

theorem reg_mem_partsWritten {i : Instr} {r : Reg} : .reg r ∈ partsWritten i ↔ r ∈ registersWritten i := by
  have : Part.reg r ∉ otherPartsWritten i := by cases i <;> simp [otherPartsWritten]
  simp [partsWritten, this]

theorem mem_partsWritten_of_not_reg {i : Instr} {p : Part} (hp : ∀ r, p ≠ .reg r) :
    p ∈ partsWritten i ↔ p ∈ otherPartsWritten i := by
  have : p ∉ (registersWritten i).map .reg := by simpa using fun r _ => (hp r).symm
  simp [partsWritten, this]

/-- An instruction's effect changes nothing but PC and the parts it writes. -/
theorem keepsAllBut_of_effect {i : Instr} (h : Effect i s t) : KeepsAllBut (partsWritten i) s t := by
  have adv := KeepsAllBut.advance (partsWritten i) s
  cases i <;> simp only [Effect] at h
  case nop => exact h ▸ adv
  case cls => exact h ▸ adv.trans (.setFB (by simp [partsWritten, otherPartsWritten]) _)
  case ret => exact h.2 ▸ adv.trans (.popPC (by simp [partsWritten, otherPartsWritten]))
  case callNnn =>
    exact h.2 ▸ (adv.trans (.push (by simp [partsWritten, otherPartsWritten]) _)).trans (.setPC _)
  case jpNnn | jpV0Nnn => exact h ▸ adv.trans (.setPC _)
  case seVxNn | sneVxNn | seVxVy | sneVxVy => exact h ▸ adv.trans (.skipIf _)
  case skpVx | sknpVx =>
    obtain ⟨-, rfl⟩ := h
    exact adv.trans (.skipIf _)
  case ldVxNn | addVxNn | ldVxVy | orVxVy | andVxVy | xorVxVy | ldVxDT =>
    exact h ▸ adv.trans (.setV (by simp [partsWritten, registersWritten]) _)
  case addVxVy | subVxVy | shrVxVy | subnVxVy | shlVxVy =>
    exact h ▸ adv.trans (.setVAndFlag (by simp [partsWritten, registersWritten])
      (by simp [partsWritten, registersWritten]) (by simp [partsWritten, otherPartsWritten]) _ _ _)
  case ldINnn | addIVx | ldFVx => exact h ▸ adv.trans (.setI (by simp [partsWritten, otherPartsWritten]) _)
  case rndVxNn =>
    exact h ▸ (adv.trans (.setV (by simp [partsWritten, registersWritten]) _)).trans
      (.nextDraw (by simp [partsWritten, otherPartsWritten]))
  case drwVxVyN =>
    exact h.2 ▸ (adv.trans (.setFB (by simp [partsWritten, otherPartsWritten]) _)).trans
      (.setV (by simp [partsWritten, registersWritten]) _)
  case ldVxK =>
    obtain ⟨k, -, rfl⟩ | ⟨-, rfl⟩ := h
    · exact adv.trans (.setV (by simp [partsWritten, registersWritten]) _)
    · exact .refl _ _
  case ldDTVx => exact h ▸ adv.trans (.setDT (by simp [partsWritten, otherPartsWritten]) _)
  case ldSTVx => exact h ▸ adv.trans (.setST (by simp [partsWritten, otherPartsWritten]) _)
  case ldBVx | ldMemVx =>
    exact h.2.2 ▸ adv.trans (.storeBytes (by simp [partsWritten, otherPartsWritten]) _ _)
  case ldVxMem =>
    exact h.2 ▸ adv.trans (.loadRegs (fun _ hk => reg_mem_partsWritten.2 hk) _)

end Sys2Proof.Claims

/-! PROOFS: the state. What a step and a host transaction can do, and which of them may change which part. -/

namespace Sys2Proof.Claims

open Sys2Proof.Machine

variable {s t : State}

/-- Everything a step can do: nothing on a halted machine, a fault and nothing else, or the effect of the instruction
fetched. -/
theorem step_outcome (h : Machine.step s = .next t) :
    (s.fault ≠ none ∧ t = s) ∨ (∃ c o a, t = s.withFault c o a) ∨
      s.fault = none ∧ ∃ i, Fetches s i ∧ Effect i s t := by
  by_cases hf : s.fault = none
  · obtain ⟨-, rfl⟩ | ⟨w, -, -, rfl⟩ | ⟨w, i, hw, hi, he⟩ := step_cases hf h
    · exact .inr (.inl ⟨_, _, _, rfl⟩)
    · exact .inr (.inl ⟨_, _, _, rfl⟩)
    · obtain ⟨c, a, rfl, -⟩ | he := exec_cases he
      · exact .inr (.inl ⟨_, _, _, rfl⟩)
      · exact .inr (.inr ⟨hf, i, ⟨w, hw, hi⟩, he⟩)
  · obtain ⟨r, hr⟩ := Option.ne_none_iff_exists'.1 hf
    simp only [Machine.step, hr] at h
    exact .inl ⟨hf, by simpa using h.symm⟩

/-- load copies the image, raises its fault, or finds a halted machine (R282). -/
theorem load_outcome (s : State) (bytes : List Byte) :
    s.load bytes = s ∨ (∃ c o a, s.load bytes = s.withFault c o a) ∨
      Config.programBase + bytes.length ≤ Config.memSize ∧ s.load bytes = s.storeBytes Config.programBase bytes := by
  unfold State.load
  split
  · exact .inl rfl
  · split
    · exact .inr (.inl ⟨_, _, _, rfl⟩)
    · exact .inr (.inr ⟨by omega, rfl⟩)

/-- tick_timers writes the two timers, or finds a halted machine (R261). -/
theorem tickTimers_outcome (s : State) :
    s.tickTimers = s ∨ s.tickTimers = { s with dt := tickDown s.dt, st := tickDown s.st } := by
  unfold State.tickTimers
  split
  · exact .inl rfl
  · exact .inr rfl

/-- set_key writes one flag, raises its fault, or finds a halted machine (R262). -/
theorem setKey_outcome (s : State) (index : Nat) (pressed : Bool) :
    s.setKey index pressed = s ∨ (∃ c o a, s.setKey index pressed = s.withFault c o a) ∨
      ∃ h : index < 16, s.setKey index pressed = { s with key := s.key.set index pressed h } := by
  unfold State.setKey
  split
  · exact .inl rfl
  · split
    · next h => exact .inr (.inr ⟨h, rfl⟩)
    · exact .inr (.inl ⟨_, _, _, rfl⟩)

/-- Everything a transaction of R260 can do: nothing, a fault and nothing else, or its own effect. -/
theorem transact_outcome {tr : Transaction} (h : transact tr s = .next t) :
    t = s ∨ (∃ c o a, t = s.withFault c o a) ∨
    (tr = .reset ∧ t = s.afterReset) ∨
    (tr = .step ∧ s.fault = none ∧ ∃ i, Fetches s i ∧ Effect i s t) ∨
    (∃ bytes, tr = .load bytes ∧ Config.programBase + bytes.length ≤ Config.memSize ∧
      t = s.storeBytes Config.programBase bytes) ∨
    (tr = .tickTimers ∧ t = { s with dt := tickDown s.dt, st := tickDown s.st }) ∨
    ∃ index pressed, tr = .setKey index pressed ∧
      ∃ hk : index < 16, t = { s with key := s.key.set index pressed hk } := by
  cases tr <;> simp only [transact, Host.Outcome.next.injEq] at h
  case reset => exact .inr (.inr (.inl ⟨rfl, h.symm⟩))
  case load bytes =>
    subst h
    obtain e | hf | ⟨hl, e⟩ := load_outcome s bytes
    · exact .inl e
    · exact .inr (.inl hf)
    · exact .inr (.inr (.inr (.inr (.inl ⟨bytes, rfl, hl, e⟩))))
  case step =>
    obtain ⟨-, e⟩ | hf | hi := step_outcome h
    · exact .inl e
    · exact .inr (.inl hf)
    · exact .inr (.inr (.inr (.inl ⟨rfl, hi⟩)))
  case tickTimers =>
    subst h
    obtain e | e := tickTimers_outcome s
    · exact .inl e
    · exact .inr (.inr (.inr (.inr (.inr (.inl ⟨rfl, e⟩)))))
  case setKey index pressed =>
    subst h
    obtain e | hf | hk := setKey_outcome s index pressed
    · exact .inl e
    · exact .inr (.inl hf)
    · exact .inr (.inr (.inr (.inr (.inr (.inr ⟨index, pressed, rfl, hk⟩)))))
  case display | readOutputs => exact .inl h.symm

theorem kept_refl (p : Part) (s : State) : p.Kept s s := (KeepsAllBut.refl [] s).kept (by simp)

theorem kept_withFault (p : Part) (s : State) (c : Fault) (o : Option Word) (a : Nat) :
    p.Kept s (s.withFault c o a) := by
  cases p <;> simp [Part.Kept]

/-- A part changes only by a transaction that writes it: reset, a step of an instruction that writes the part,
load for memory, tick_timers for the timers. -/
theorem part_changes_only_by_writer {tr : Transaction} {p : Part} (h : transact tr s = .next t) (hp : ¬ p.Kept s t) :
    tr = .reset ∨ (tr = .step ∧ ∃ i, Fetches s i ∧ Effect i s t ∧ p ∈ partsWritten i) ∨
    ((∃ bytes, tr = .load bytes) ∧ p = .memory) ∨ (tr = .tickTimers ∧ (p = .delay ∨ p = .sound)) := by
  obtain rfl | ⟨c, o, a, rfl⟩ | ⟨hr, -⟩ | ⟨hs, -, i, hi, he⟩ | ⟨bytes, hl, -, rfl⟩ | ⟨htk, rfl⟩ |
    ⟨index, pressed, -, hk, rfl⟩ := transact_outcome h
  · exact absurd (kept_refl p t) hp
  · exact absurd (kept_withFault p s c o a) hp
  · exact .inl hr
  · refine .inr (.inl ⟨hs, i, hi, he, ?_⟩)
    by_contra hw
    exact hp ((keepsAllBut_of_effect he).kept hw)
  · refine .inr (.inr (.inl ⟨⟨bytes, hl⟩, ?_⟩))
    by_contra hm
    have hf : KeepsAllBut [.memory] s (s.storeBytes Config.programBase bytes) := .storeBytes (by simp) _ _
    exact hp (hf.kept (by simpa using hm))
  · refine .inr (.inr (.inr ⟨htk, ?_⟩))
    by_contra hm
    have hf : KeepsAllBut [.delay, .sound] s { s with dt := tickDown s.dt, st := tickDown s.st } :=
      (KeepsAllBut.setDT (by simp) (tickDown s.dt)).trans (.setST (by simp) (tickDown s.st))
    exact hp (hf.kept (by simpa using hm))
  · exact absurd (by cases p <;> simp [Part.Kept, State.getV, State.readByte]) hp

/-- A part other than memory and the timers changes only by reset or by a step of an instruction that writes
it. -/
theorem part_changes_only_by_step {tr : Transaction} {p : Part} (h : transact tr s = .next t) (hp : ¬ p.Kept s t)
    (hm : p ≠ .memory := by simp) (hd : p ≠ .delay := by simp) (hst : p ≠ .sound := by simp) :
    tr = .reset ∨ tr = .step ∧ ∃ i, Fetches s i ∧ Effect i s t ∧ p ∈ partsWritten i := by
  simpa [hm, hd, hst] using part_changes_only_by_writer h hp

/-! Which instructions write a part. -/

theorem stack_mem_partsWritten {i : Instr} : .stack ∈ partsWritten i ↔ i = .ret ∨ ∃ nnn, i = .callNnn nnn := by
  rw [mem_partsWritten_of_not_reg (by simp)]
  cases i <;> simp [otherPartsWritten]

theorem screen_mem_partsWritten {i : Instr} : .screen ∈ partsWritten i ↔ i = .cls ∨ ∃ x y n, i = .drwVxVyN x y n := by
  rw [mem_partsWritten_of_not_reg (by simp)]
  cases i <;> simp [otherPartsWritten]

theorem index_mem_partsWritten {i : Instr} :
    .index ∈ partsWritten i ↔ (∃ nnn, i = .ldINnn nnn) ∨ (∃ x, i = .addIVx x) ∨ ∃ x, i = .ldFVx x := by
  rw [mem_partsWritten_of_not_reg (by simp)]
  cases i <;> simp [otherPartsWritten]

theorem delay_mem_partsWritten {i : Instr} : .delay ∈ partsWritten i ↔ ∃ x, i = .ldDTVx x := by
  rw [mem_partsWritten_of_not_reg (by simp)]
  cases i <;> simp [otherPartsWritten]

theorem sound_mem_partsWritten {i : Instr} : .sound ∈ partsWritten i ↔ ∃ x, i = .ldSTVx x := by
  rw [mem_partsWritten_of_not_reg (by simp)]
  cases i <;> simp [otherPartsWritten]

/-- KEY changes only by reset and set_key (R36). -/
theorem key_changes_only_by_setKey {tr : Transaction} (h : transact tr s = .next t) (hk : t.key ≠ s.key) :
    tr = .reset ∨ ∃ index pressed, tr = .setKey index pressed := by
  obtain rfl | ⟨c, o, a, rfl⟩ | ⟨hr, -⟩ | ⟨-, -, i, -, he⟩ | ⟨bytes, -, -, rfl⟩ | ⟨-, rfl⟩ |
    ⟨index, pressed, hs, -⟩ := transact_outcome h
  · exact absurd rfl hk
  · exact absurd rfl hk
  · exact .inl hr
  · exact absurd (keepsAllBut_of_effect he).keys hk
  · exact absurd (State.storeBytes_key ..) hk
  · exact absurd rfl hk
  · exact .inr ⟨index, pressed, hs⟩

/-! The frame statements. -/

/-- Settles O14, by the frame of the instruction the step fetched. -/
theorem registersChangeOnlyByTheirWriters : Obligations.RegistersChangeOnlyByTheirWriters := by
  intro tr s t r h hr
  obtain hreset | ⟨hs, i, hi, -, hw⟩ := part_changes_only_by_step (p := .reg r) h hr
  · exact .inl hreset
  · exact .inr ⟨hs, i, hi, reg_mem_partsWritten.1 hw⟩

/-- Settles O15: the stack is a part that only 00EE and 2nnn write, and 00EE leaves the slots. -/
theorem stackMovesOnlyByCallAndReturn : Obligations.StackMovesOnlyByCallAndReturn := by
  intro tr s t h
  refine ⟨fun hsp => ?_, fun hst => ?_⟩
  · obtain hreset | ⟨hs, i, hi, -, hw⟩ := part_changes_only_by_step (p := .stack) h fun hk => hsp hk.1
    · exact .inl hreset
    · obtain rfl | ⟨nnn, rfl⟩ := stack_mem_partsWritten.1 hw
      · exact .inr ⟨hs, .inr hi⟩
      · exact .inr ⟨hs, .inl ⟨nnn, hi⟩⟩
  · obtain hreset | ⟨hs, i, hi, he, hw⟩ := part_changes_only_by_step (p := .stack) h fun hk => hst hk.2
    · exact .inl hreset
    · obtain rfl | ⟨nnn, rfl⟩ := stack_mem_partsWritten.1 hw
      · obtain ⟨-, rfl⟩ := he
        exact absurd (State.popPC_stack _) hst
      · exact .inr ⟨hs, nnn, hi⟩

/-- Settles O16, by the instructions that write the screen. -/
theorem screenChangesOnlyByClearAndDraw : Obligations.ScreenChangesOnlyByClearAndDraw := by
  intro tr s t h hfb
  obtain hreset | ⟨hs, i, hi, -, hw⟩ := part_changes_only_by_step (p := .screen) h hfb
  · exact .inl hreset
  · obtain rfl | ⟨x, y, n, rfl⟩ := screen_mem_partsWritten.1 hw
    · exact .inr ⟨hs, .inl hi⟩
    · exact .inr ⟨hs, .inr ⟨x, y, n, hi⟩⟩

/-- Settles O17, by the instructions that write a timer, and the transactions that write KEY. -/
theorem timersAndKeysChangeOnlyByTheirWriters : Obligations.TimersAndKeysChangeOnlyByTheirWriters := by
  intro tr s t h
  refine ⟨fun hdt => ?_, fun hst => ?_, key_changes_only_by_setKey h⟩
  · obtain hreset | ⟨hs, i, hi, -, hw⟩ | ⟨-, hp⟩ | ⟨htk, -⟩ := part_changes_only_by_writer (p := .delay) h hdt
    · exact .inl hreset
    · obtain ⟨x, rfl⟩ := delay_mem_partsWritten.1 hw
      exact .inr (.inr ⟨hs, x, hi⟩)
    · exact nomatch hp
    · exact .inr (.inl htk)
  · obtain hreset | ⟨hs, i, hi, -, hw⟩ | ⟨-, hp⟩ | ⟨htk, -⟩ := part_changes_only_by_writer (p := .sound) h hst
    · exact .inl hreset
    · obtain ⟨x, rfl⟩ := sound_mem_partsWritten.1 hw
      exact .inr (.inr ⟨hs, x, hi⟩)
    · exact nomatch hp
    · exact .inr (.inl htk)

/-- Settles O18, by the instructions that write I. -/
theorem indexChangesOnlyByItsWriters : Obligations.IndexChangesOnlyByItsWriters := by
  intro tr s t h hidx
  obtain hreset | ⟨hs, i, hi, -, hw⟩ := part_changes_only_by_step (p := .index) h hidx
  · exact .inl hreset
  · obtain ⟨nnn, rfl⟩ | ⟨x, rfl⟩ | ⟨x, rfl⟩ := index_mem_partsWritten.1 hw
    · exact .inr ⟨hs, .inl ⟨nnn, hi⟩⟩
    · exact .inr ⟨hs, .inr (.inl ⟨x, hi⟩)⟩
    · exact .inr ⟨hs, .inr (.inr ⟨x, hi⟩)⟩

end Sys2Proof.Claims

/-! PROOFS: the state. PC after an instruction, the reset state, and the invariant of the machine. -/

namespace Sys2Proof.Claims

open Sys2Proof.Machine

variable {s t : State}

/-! PC (10_state.md R25). -/

theorem addrNnn_eq_ofNat (nnn : Imm12) : addrNnn nnn = BitVec.ofNat 16 nnn.toNat :=
  BitVec.eq_of_toNat_eq (by simp [addrNnn])

theorem skipIf_advance_pc (s : State) (c : Bool) : (s.advance.skipIf c).pc = skipPc s c := by
  cases c
  · rfl
  · simp [skipPc, BitVec.add_assoc]

theorem popPC_pc_eq_getD (h : 0 < s.sp.val) : s.popPC.pc = s.stack.toList.getD (s.sp.val - 1) 0 := by
  have hk : s.sp.val - 1 < 16 := by omega
  simp [State.popPC_pc h, List.getD, hk]

theorem key_getD {k : Nat} (h : k < 16) : s.key.toList.getD k false = s.key[k] := by
  simp [List.getD, h]

theorem any_key_of_firstKey_some {k : Key} (h : s.firstKey = some k) : s.key.toList.any id = true := by
  have hk := (State.firstKey_some h).1
  exact List.any_eq_true.2 ⟨s.key[k], by simp, hk⟩

theorem any_key_of_firstKey_none (h : s.firstKey = none) : s.key.toList.any id = false := by
  simp only [List.any_eq_false]
  intro b hb
  obtain ⟨k, hk, rfl⟩ := List.getElem_of_mem hb
  simpa using State.firstKey_none h ⟨k, by simpa using hk⟩

/-- An instruction that does not fault leaves PC as R25's table says. -/
theorem pc_of_effect {i : Instr} (h : Effect i s t) : t.pc = pcAfter i s := by
  cases i <;> simp only [Effect] at h
  case ret =>
    obtain ⟨hsp, rfl⟩ := h
    exact popPC_pc_eq_getD (s := s.advance) hsp
  case jpNnn => exact h ▸ addrNnn_eq_ofNat _
  case callNnn => exact h.2 ▸ addrNnn_eq_ofNat _
  case jpV0Nnn nnn =>
    subst h
    simp [pcAfter, zextByte, addrNnn_eq_ofNat, BitVec.ofNat_add]
  case seVxNn | sneVxNn | seVxVy | sneVxVy => exact h ▸ skipIf_advance_pc s _
  case skpVx | sknpVx =>
    obtain ⟨hx, rfl⟩ := h
    rw [skipIf_advance_pc, pcAfter, key_getD hx]
  case ldVxK =>
    obtain ⟨k, hk, rfl⟩ | ⟨hk, rfl⟩ := h
    · simp only [pcAfter, any_key_of_firstKey_some hk]; rfl
    · simp only [pcAfter, any_key_of_firstKey_none hk]; rfl
  case drwVxVyN | ldVxMem =>
    obtain ⟨-, rfl⟩ := h
    simp [pcAfter]
  case ldBVx | ldMemVx =>
    obtain ⟨-, -, rfl⟩ := h
    simp [pcAfter]
  all_goals -- the effects with no condition of their own
    subst h
    simp [pcAfter, rndWith]

theorem fetches_unique {i j : Instr} (hi : Fetches s i) (hj : Fetches s j) : i = j := by
  obtain ⟨w, hw, hwi⟩ := hi
  obtain ⟨w', hw', hwj⟩ := hj
  obtain rfl : w = w' := Option.some.inj (hw.symm.trans hw')
  exact Option.some.inj (hwi.symm.trans hwj)

/-- Settles O13: a fault leaves PC, and an effect sets it as the table says. -/
theorem pcAfterStepFollowsTheTable : Obligations.PcAfterStepFollowsTheTable := by
  intro s t hf h
  obtain ⟨hn, -⟩ | ⟨c, o, a, rfl⟩ | ⟨-, i, hi, he⟩ := step_outcome h
  · exact absurd hf hn
  · exact ⟨fun _ => rfl, fun _ _ ht => nomatch ht⟩
  · refine ⟨fun ht => absurd ((keepsAllBut_of_effect he).fault.trans hf) ht, fun j hj _ => ?_⟩
    exact fetches_unique hj hi ▸ pc_of_effect he

/-! The bounds of PC (R27). -/

theorem pc_le_of_fetches {i : Instr} (h : Fetches s i) : s.pc.toNat ≤ 0xFFE := by
  obtain ⟨w, hw, -⟩ := h
  by_contra hgt
  rw [fetch_none.2 (by omega)] at hw
  exact nomatch hw

theorem pc_add_two_toNat (h : s.pc.toNat ≤ 0xFFE) : (s.pc + 2).toNat = s.pc.toNat + 2 := by
  rw [BitVec.toNat_add, show (2 : Word).toNat = 2 from rfl]
  omega

theorem skipPc_le (h : s.pc.toNat ≤ 0xFFE) (c : Bool) : (skipPc s c).toNat ≤ 0x1002 := by
  cases c
  · have := pc_add_two_toNat h
    simp only [skipPc, Bool.false_eq_true, if_false]
    omega
  · simp only [skipPc, if_true, BitVec.toNat_add, show (4 : Word).toNat = 4 from rfl]
    omega

theorem stack_getD_le (h : s.stackBounded) (k : Nat) : (s.stack.toList.getD k 0).toNat ≤ 0x1000 := by
  by_cases hk : k < 16
  · simpa [List.getD, hk] using h ⟨k, hk⟩
  · simp [List.getD, hk]

/-- From a PC that can be fetched from, no row of R25's table leaves PC above 0xFF + 0xFFF. -/
theorem pcAfter_le (i : Instr) (hpc : s.pc.toNat ≤ 0xFFE) (hs : s.stackBounded) : (pcAfter i s).toNat ≤ 0x10FE := by
  have hnext := pc_add_two_toNat hpc
  have hskip := skipPc_le hpc
  cases i <;> simp only [pcAfter]
  case seVxNn | sneVxNn | seVxVy | sneVxVy | skpVx | sknpVx => exact (hskip _).trans (by omega)
  case ret => exact (stack_getD_le hs _).trans (by omega)
  case jpNnn | callNnn | jpV0Nnn =>
    rw [BitVec.toNat_ofNat]
    omega
  case ldVxK => split <;> omega
  all_goals omega

/-! The invariant, clause by clause. -/

/-- The bytes an instruction stores lie inside memory, so the canonical form is kept (R50). -/
theorem memWf_of_effect {i : Instr} (h : Effect i s t) (hm : s.memWf) : t.memWf := by
  cases i <;> simp only [Effect] at h
  case ldBVx =>
    obtain ⟨hb, -, rfl⟩ := h
    exact State.memWf_storeBytes (s := s.advance) hm hb
  case ldMemVx =>
    obtain ⟨hb, -, rfl⟩ := h
    exact State.memWf_storeBytes (s := s.advance) hm (by simpa using hb)
  case ret | callNnn | drwVxVyN | ldVxMem | skpVx | sknpVx =>
    obtain ⟨-, rfl⟩ := h
    simpa [State.memWf] using hm
  case ldVxK =>
    obtain ⟨k, -, rfl⟩ | ⟨-, rfl⟩ := h
    · simpa [State.memWf] using hm
    · exact hm
  all_goals -- the effects with no condition of their own
    subst h
    simpa [State.memWf, rndWith] using hm

/-- Only 2nnn writes a slot, and what it pushes is the advanced PC, at most 0x1000 (R27). -/
theorem stackBounded_of_effect {i : Instr} (h : Effect i s t) (hpc : s.pc.toNat ≤ 0xFFE) (hs : s.stackBounded) :
    t.stackBounded := by
  by_cases hw : .stack ∈ partsWritten i
  · obtain rfl | ⟨nnn, rfl⟩ := stack_mem_partsWritten.1 hw
    · obtain ⟨-, rfl⟩ := h
      simpa [State.stackBounded] using hs
    · obtain ⟨hsp, rfl⟩ := h
      intro k
      have hnext := pc_add_two_toNat hpc
      rw [State.setPC_stack, State.push_slot (s := s.advance) hsp]
      split
      · simp only [State.advance_pc]; omega
      · exact hs k
  · intro k
    rw [((keepsAllBut_of_effect h).stack hw).2]
    exact hs k

theorem inv_of_effect {i : Instr} (h : Effect i s t) (hi : Fetches s i) (hf : s.fault = none) (hinv : s.Inv) :
    t.Inv where
  memory := memWf_of_effect h hinv.memory
  stack := stackBounded_of_effect h (pc_le_of_fetches hi) hinv.stack
  pc := by
    rw [State.pcBounded, pc_of_effect h]
    exact pcAfter_le i (pc_le_of_fetches hi) hinv.stack
  record r hr := by
    rw [(keepsAllBut_of_effect h).fault, hf] at hr
    exact nomatch hr

theorem inv_withFault (hinv : s.Inv) (c : Fault) (o : Option Word) (a : Nat) : (s.withFault c o a).Inv where
  memory := hinv.memory
  stack := hinv.stack
  pc := hinv.pc
  record r hr := by
    obtain rfl := Option.some.inj hr
    rfl

/-- Settles O20: a halted machine and a fault keep the invariant, and so does every instruction's effect. -/
theorem stepKeepsTheMachineInvariant : Obligations.StepKeepsTheMachineInvariant := by
  intro s t hinv h
  obtain ⟨-, rfl⟩ | ⟨c, o, a, rfl⟩ | ⟨hf, i, hi, he⟩ := step_outcome h
  · exact hinv
  · exact inv_withFault hinv c o a
  · exact inv_of_effect he hi hf hinv

/-! The reset state (R41, R280). -/

theorem readByte_initial (p : Params) (d : Nat) (a : Nat) :
    (State.initial p d).readByte a = Memory.resetByte p.font a := rfl

theorem inv_initial (p : Params) (d : Nat) : (State.initial p d).Inv where
  memory := Memory.wf_nil p.font
  stack k := by simp [State.initial]
  pc := show (0x200 : Word).toNat ≤ 0x10FE by decide
  record _ hr := nomatch hr

/-- Settles O21: an initialized state has the invariant, whatever its parameters. -/
theorem resetHasTheMachineInvariant : Obligations.ResetHasTheMachineInvariant :=
  ⟨inv_initial defaultParams 0, fun a _ => readByte_initial defaultParams 0 a⟩

/-- Settles O58: reset leaves the initial state of the machine's parameters and draws, which has the reset values
and is its own initialization. -/
theorem initializeLeavesTheResetValues : Obligations.InitializeLeavesTheResetValues := by
  intro s
  refine ⟨State.initial s.params s.draws, rfl, fun a h => ?_, fun a h _ => ?_, fun r => ?_, rfl, rfl, fun k => ?_, rfl,
    rfl, rfl, blankFrame_pixel, fun k => ?_, rfl, rfl⟩
  · simp [readByte_initial, Memory.resetByte, h]
  · simp [readByte_initial, Memory.resetByte, Nat.not_lt.2 h]
  · simp [State.initial, State.getV]
  · simp [State.initial]
  · simp [State.initial]

end Sys2Proof.Claims

/-! PROOFS: memory. A canonical memory is fixed by what it reads, and a fetch gives the bytes stored where it reads. -/

namespace Sys2Proof.Machine

variable {s t : State}

/-! The canonical form (log entry 5). -/

/-- A listed cell holds what its address reads as. -/
theorem Memory.read_of_mem {font : Vector Byte 80} {m : Memory} (h : m.wf font) {c : Host.Cell} (hc : c ∈ m) :
    m.read font c.1 = c.2 := by
  induction m with
  | nil => exact nomatch hc
  | cons d rest ih =>
    obtain ⟨hlt, -, hwf⟩ := (Memory.wf_cons font).1 h
    rcases List.mem_cons.1 hc with rfl | hc
    · simp [Memory.read]
    · simp [Memory.read, (hlt c hc).ne, ih hwf hc]

/-- The cells of a canonical memory are the addresses that do not read as their reset content, with what they read. -/
theorem Memory.mem_iff_read {font : Vector Byte 80} {m : Memory} (h : m.wf font) (c : Host.Cell) :
    c ∈ m ↔ m.read font c.1 = c.2 ∧ c.2 ≠ Memory.resetByte font c.1 := by
  refine ⟨fun hc => ⟨Memory.read_of_mem h hc, (h.2 c hc).2⟩, fun ⟨hr, hne⟩ => ?_⟩
  by_contra hc
  have hunlisted : ∀ d ∈ m, d.1 ≠ c.1 := fun d hd he =>
    hc (Prod.ext he ((Memory.read_of_mem h hd).symm.trans (he ▸ hr)) ▸ hd)
  exact hne (hr.symm.trans (Memory.read_of_not_listed font hunlisted))

/-! Fetching (R57, R58). -/

/-- A fetch inside the bytes just stored gives two of them. -/
theorem fetch_storeBytes {base k : Nat} {bs : List Byte} {pc : Word} (hm : s.memWf)
    (hb : base + bs.length ≤ Config.memSize) (hk : k + 1 < bs.length) (hpc : pc.toNat = base + k) :
    State.fetch { s.storeBytes base bs with pc := pc } = some (bs[k] ++ bs[k + 1]) := by
  have hread : ∀ j (hj : j < bs.length), (s.storeBytes base bs).readByte (base + j) = bs[j] := fun j hj => by
    simp [State.readByte_storeBytes hm hb, hj]
  have hlast : pc.toNat ≤ 0xFFE := by
    have hsize : base + bs.length ≤ 0x1000 := hb
    omega
  rw [fetch_some (s := { s.storeBytes base bs with pc := pc }) hlast, hpc]
  exact congrArg some (congrArg₂ (· ++ ·) (hread k (by omega)) (hread (k + 1) hk))

/-- An instruction that leaves FAULT clear has had its effect. -/
theorem effect_of_exec {i : Instr} (h : exec i s = .next t) (hf : t.fault = none) : Effect i s t := by
  obtain ⟨c, a, rfl, -⟩ | he := exec_cases h
  · exact nomatch hf
  · exact he

/-- A load that leaves FAULT clear has copied an image that fits (R282). -/
theorem load_eq_storeBytes {bytes : List Byte} (hf : (s.load bytes).fault = none) :
    Config.programBase + bytes.length ≤ Config.memSize ∧ s.load bytes = s.storeBytes Config.programBase bytes := by
  unfold State.load at hf ⊢
  split at hf
  · next hhalted => simp [hf] at hhalted
  · split at hf
    · exact nomatch hf
    · next hrun hfits => exact ⟨by omega, by rw [if_neg hrun, if_neg hfits]⟩

end Sys2Proof.Machine

/-! PROOFS: memory. The statements about the memory form and the fetch. -/

namespace Sys2Proof.Claims

open Sys2Proof.Machine

/-- Settles O60: the reads give the cells, and the rising addresses their order. -/
theorem canonicalMemoriesThatReadAlikeAreEqual : Obligations.CanonicalMemoriesThatReadAlikeAreEqual := by
  intro font m m' h h' hread
  have : Std.Irrefl fun c d : Host.Cell => c.1 < d.1 := ⟨fun _ => lt_irrefl _⟩
  have : Std.Antisymm fun c d : Host.Cell => c.1 < d.1 := ⟨fun _ _ hcd hdc => absurd hdc hcd.asymm⟩
  exact h.1.eq_of_mem_iff h'.1 fun c => by rw [Memory.mem_iff_read h, Memory.mem_iff_read h', hread]

/-- Settles O7: both sides of the last address a fetch can begin at. -/
theorem fetchSucceedsExactlyInsideMemory : Obligations.FetchSucceedsExactlyInsideMemory := by
  refine ⟨fun s => fetch_some, fun s hpc => ⟨fetch_none.2 hpc, fun hf => ?_⟩⟩
  simp only [step, hf, fetch_none.2 hpc]
  rfl

/-- Settles O46: each of the three stores its bytes in one range, and a fetch in that range reads them. -/
theorem storedBytesAreFetched : Obligations.StoredBytesAreFetched := by
  refine ⟨fun s t x k pc hm h hf hk hpc => ?_, fun s t x hm h hf => ?_, fun s t bytes k pc hk hm h hf hpc => ?_⟩
  · obtain ⟨hb, -, rfl⟩ := effect_of_exec h hf
    have hnext : (⟨k.val + 1, by omega⟩ : Reg) = k + 1 := Fin.ext (by rw [Fin.val_add_one_of_lt']; omega)
    rw [fetch_storeBytes (s := s.advance) hm (by simpa using hb) (by simpa using hk) hpc, State.regBytes_get,
      State.regBytes_get, hnext]
  · obtain ⟨hb, -, rfl⟩ := effect_of_exec h hf
    exact fetch_storeBytes (s := s.advance) (k := 0) hm hb (by simp) rfl
  · obtain rfl := Host.Outcome.next.inj h
    obtain ⟨hfits, hstored⟩ := load_eq_storeBytes hf
    rw [hstored]
    exact fetch_storeBytes hm hfits hk hpc

end Sys2Proof.Claims

/-! PROOFS: memory. Which transactions change memory, and that none changes a byte below 0x200 under
LOW_WRITE_FAULT. -/

namespace Sys2Proof.Claims

open Sys2Proof.Machine

variable {s t : State}

theorem memory_mem_partsWritten {i : Instr} :
    .memory ∈ partsWritten i ↔ (∃ x, i = .ldBVx x) ∨ ∃ x, i = .ldMemVx x := by
  rw [mem_partsWritten_of_not_reg (by simp)]
  cases i <;> simp [otherPartsWritten]

/-- No transaction changes a parameter of R10. -/
theorem params_of_transact {tr : Transaction} (h : transact tr s = .next t) : t.params = s.params := by
  obtain rfl | ⟨c, o, a, rfl⟩ | ⟨-, rfl⟩ | ⟨-, -, i, -, he⟩ | ⟨bytes, -, -, rfl⟩ | ⟨-, rfl⟩ |
    ⟨index, pressed, -, hk, rfl⟩ := transact_outcome h
  · rfl
  · rfl
  · rfl
  · exact (keepsAllBut_of_effect he).params
  · exact State.storeBytes_params ..
  · rfl
  · rfl

/-- Settles O19, by the instructions that write memory. -/
theorem memoryChangesOnlyByItsWriters : Obligations.MemoryChangesOnlyByItsWriters := by
  intro tr s t h
  refine ⟨params_of_transact h, fun ⟨a, ha⟩ => ?_⟩
  obtain hreset | ⟨hs, i, hi, -, hw⟩ | ⟨hload, -⟩ | ⟨-, hp⟩ :=
    part_changes_only_by_writer (p := .memory) h fun hkept => ha (hkept a)
  · exact .inl hreset
  · obtain ⟨x, rfl⟩ | ⟨x, rfl⟩ := memory_mem_partsWritten.1 hw
    · exact .inr (.inr ⟨hs, x, .inl hi⟩)
    · exact .inr (.inr ⟨hs, x, .inr hi⟩)
  · exact .inr (.inl hload)
  · simp at hp

/-- What every transaction keeps under LOW_WRITE_FAULT: canonical memory, the parameter, and each byte below 0x200 at
its reset content (R51, R56). -/
structure LowMemoryProtected (s : State) : Prop where
  memory : s.memWf
  faults : s.params.lowWriteFault = true
  intact : s.lowMemoryIntact

namespace LowMemoryProtected

theorem initial (p : Params) (d : Nat) (hp : p.lowWriteFault = true) : LowMemoryProtected (State.initial p d) where
  memory := (inv_initial p d).memory
  faults := hp
  intact a _ := readByte_initial p d a

/-- The three clauses speak of memory and the parameters alone. -/
theorem congr (h : LowMemoryProtected s) (hm : t.mem = s.mem) (hp : t.params = s.params) : LowMemoryProtected t where
  memory := by rw [State.memWf, hm, hp]; exact h.memory
  faults := by rw [hp]; exact h.faults
  intact a ha := by rw [State.readByte_congr hm hp, hp]; exact h.intact a ha

/-- Bytes stored from 0x200 upwards leave the bytes below alone. -/
theorem storeBytes (h : LowMemoryProtected s) {base : Nat} {bs : List Byte} (hlow : Config.programBase ≤ base)
    (hb : base + bs.length ≤ Config.memSize) : LowMemoryProtected (s.storeBytes base bs) where
  memory := State.memWf_storeBytes h.memory hb
  faults := by rw [State.storeBytes_params]; exact h.faults
  intact a ha := by
    rw [State.readByte_storeBytes h.memory hb, dif_neg (by omega), State.storeBytes_params]
    exact h.intact a ha

/-- Fx33 and Fx55 have passed the low-write check, and no other instruction writes memory. -/
theorem effect (h : LowMemoryProtected s) {i : Instr} (he : Effect i s t) : LowMemoryProtected t := by
  have hadv : LowMemoryProtected s.advance := h.congr rfl rfl
  by_cases hw : .memory ∈ partsWritten i
  · obtain ⟨x, rfl⟩ | ⟨x, rfl⟩ := memory_mem_partsWritten.1 hw
    · obtain ⟨hb, hlow, rfl⟩ := he
      exact hadv.storeBytes (hlow h.faults) hb
    · obtain ⟨hb, hlow, rfl⟩ := he
      exact hadv.storeBytes (hlow h.faults) (by simpa using hb)
  · have hkeep := keepsAllBut_of_effect he
    exact {
      memory := memWf_of_effect he h.memory
      faults := by rw [hkeep.params]; exact h.faults
      intact := fun a ha => by rw [hkeep.memory hw, hkeep.params]; exact h.intact a ha }

theorem transact {tr : Transaction} (h : LowMemoryProtected s) (ht : Machine.transact tr s = .next t) :
    LowMemoryProtected t := by
  obtain rfl | ⟨c, o, a, rfl⟩ | ⟨-, rfl⟩ | ⟨-, -, i, -, he⟩ | ⟨bytes, -, hb, rfl⟩ | ⟨-, rfl⟩ |
    ⟨index, pressed, -, hk, rfl⟩ := transact_outcome ht
  · exact h
  · exact h.congr rfl rfl
  · exact .initial s.params s.draws h.faults
  · exact h.effect he
  · exact h.storeBytes le_rfl hb
  · exact h.congr rfl rfl
  · exact h.congr rfl rfl

end LowMemoryProtected

/-- What every transaction keeps, every finite run keeps (R266). -/
theorem runHost_keeps {P : State → Prop} (hP : ∀ {tr s t}, P s → transact tr s = .next t → P t)
    {trs : List Transaction} (h : P s) (hrun : runHost trs s = .next t) : P t := by
  induction trs generalizing s with
  | nil => exact Host.Outcome.next.inj hrun ▸ h
  | cons tr rest ih =>
    simp only [runHost] at hrun
    split at hrun
    · next u hu => exact ih (hP h hu) hrun
    · exact nomatch hrun
    · exact nomatch hrun

/-- Settles O23: protected low memory is kept along the run. -/
theorem noRunWritesLowMemory : Obligations.NoRunWritesLowMemory := fun _ _ _ hinv hlow hintact hrun =>
  (runHost_keeps LowMemoryProtected.transact ⟨hinv.memory, hlow, hintact⟩ hrun).intact

end Sys2Proof.Claims

/-! PROOFS: encoding. What the decoder's tables answer, nibble by nibble: the word of the instruction they give, and
when they give none. -/

namespace Sys2Proof

variable {d1 d2 d3 d4 : Nibble} {x y : Reg} {i : Instr} {w : Word}

/-- Decoding the word of four nibbles dispatches on those nibbles (R71, R77). -/
@[simp] theorem decode_wordOf (a b c d : Nibble) : decode (wordOf a b c d) = decodeNibbles a b c d := by
  simp [decode]

/-! From an instruction to its word and back (R86): one case for each format of R73. -/

theorem decode_encode (i : Instr) : decode (encode i) = some i := by
  cases i with
  | nop | cls | ret => rfl
  | jpNnn nnn | callNnn nnn | ldINnn nnn | jpV0Nnn nnn => simp [encode, encodeA, decodeNibbles]
  | seVxNn x nn | sneVxNn x nn | ldVxNn x nn | addVxNn x nn | rndVxNn x nn =>
    simp [encode, encodeXB, decodeNibbles]
  | seVxVy x y | sneVxVy x y | drwVxVyN x y n => simp [encode, encodeXY, decodeNibbles]
  | ldVxVy x y | orVxVy x y | andVxVy x y | xorVxVy x y | addVxVy x y | subVxVy x y | shrVxVy x y | subnVxVy x y
  | shlVxVy x y =>
    simp [encode, encodeXY, decodeNibbles, decode8]
  | skpVx x | sknpVx x => simp [encode, encodeX, decodeNibbles, decodeE]
  | ldVxDT x | ldVxK x | ldDTVx x | ldSTVx x | addIVx x | ldFVx x | ldBVx x | ldMemVx x | ldVxMem x =>
    simp [encode, encodeX, decodeNibbles, decodeF]

theorem decodeBytes_encodeBytes (i : Instr) (rest : List Byte) :
    decodeBytes (encodeBytes i ++ rest) = some (i, rest) := by
  simp [encodeBytes, decodeBytes, decode_encode]

/-! From a word to its instruction and back (R87): what a table gives has the nibbles the table was asked for. -/

theorem eq_ofNat_of_toNat {d : Nibble} {k : Nat} (h : d.toNat = k) : d = BitVec.ofNat 4 k := by
  rw [← h, BitVec.ofNat_toNat, BitVec.setWidth_eq]

theorem encode_of_decode0 (h : decode0 d2 d3 d4 = some i) : encode i = wordOf 0x0 d2 d3 d4 := by
  unfold decode0 at h
  split at h
  case h_4 => exact nomatch h
  all_goals
    next h2 h3 h4 =>
      obtain rfl := Option.some.inj h
      rw [eq_ofNat_of_toNat h2, eq_ofNat_of_toNat h3, eq_ofNat_of_toNat h4]
      rfl

theorem encode_of_decode8 (h : decode8 x y d4 = some i) : encode i = encodeXY 0x8 x y d4 := by
  unfold decode8 at h
  split at h
  case h_10 => exact nomatch h
  all_goals
    next h4 =>
      obtain rfl := Option.some.inj h
      rw [eq_ofNat_of_toNat h4]
      rfl

theorem encode_of_decodeE (h : decodeE x d3 d4 = some i) : encode i = encodeX 0xE x d3 d4 := by
  unfold decodeE at h
  split at h
  case h_3 => exact nomatch h
  all_goals
    next h3 h4 =>
      obtain rfl := Option.some.inj h
      rw [eq_ofNat_of_toNat h3, eq_ofNat_of_toNat h4]
      rfl

theorem encode_of_decodeF (h : decodeF x d3 d4 = some i) : encode i = encodeX 0xF x d3 d4 := by
  unfold decodeF at h
  split at h
  case h_10 => exact nomatch h
  all_goals
    next h3 h4 =>
      obtain rfl := Option.some.inj h
      rw [eq_ofNat_of_toNat h3, eq_ofNat_of_toNat h4]
      rfl

theorem encode_of_decodeNibbles (h : decodeNibbles d1 d2 d3 d4 = some i) : encode i = wordOf d1 d2 d3 d4 := by
  unfold decodeNibbles at h
  split at h
  case h_17 => exact nomatch h
  all_goals
    rename_i h1
    rw [eq_ofNat_of_toNat h1]
  case h_1 => exact encode_of_decode0 h
  case h_9 => exact encode_of_decode8 h
  case h_15 => exact encode_of_decodeE h
  case h_16 => exact encode_of_decodeF h
  case h_6 | h_10 => -- 5xy0 and 9xy0
    obtain ⟨h4, h⟩ := Option.ite_none_right_eq_some.1 h
    obtain rfl := Option.some.inj h
    rw [eq_ofNat_of_toNat h4]
    rfl
  all_goals -- the leading nibbles that leave the rest of the word free
    obtain rfl := Option.some.inj h
    simp [encode, encodeA, encodeXB, encodeXY]

theorem encode_of_decode (h : decode w = some i) : encode i = w :=
  (encode_of_decodeNibbles h).trans (wordOf_nibbles w)

/-! The rows of the opcode map (R80). -/

/-- The per-instruction laws as one: an instruction's word is selected by its own row. -/
theorem selects_encode (i : Instr) : (rowOf i).selects (encode i) = true := by
  open Laws.EncodesItsRow in
  exact Instr.casesOn (motive := Statement) i nop cls ret jpNnn callNnn seVxNn sneVxNn seVxVy ldVxNn addVxNn ldVxVy
    orVxVy andVxVy xorVxVy addVxVy subVxVy shrVxVy subnVxVy shlVxVy sneVxVy ldINnn jpV0Nnn rndVxNn drwVxVyN skpVx
    sknpVx ldVxDT ldVxK ldDTVx ldSTVx addIVx ldFVx ldBVx ldMemVx ldVxMem

theorem rowOf_mem_opcodeRows (i : Instr) : rowOf i ∈ opcodeRows := by
  cases i <;> simp [opcodeRows, rowHeads, rowOf]

/-- Two rows differ in a bit that both of their masks keep, so no word has the bits of both. -/
theorem eq_of_bits_agree : ∀ r ∈ opcodeRows, ∀ q ∈ opcodeRows, r.bits &&& q.mask = q.bits &&& r.mask → r = q := by
  decide

theorem opcodeRow_unique {r q : OpcodeRow} (hr : r ∈ opcodeRows) (hq : q ∈ opcodeRows) (h : w &&& r.mask = r.bits)
    (h' : w &&& q.mask = q.bits) : r = q :=
  eq_of_bits_agree r hr q hq (by rw [← h, ← h', BitVec.and_assoc, BitVec.and_assoc, BitVec.and_comm r.mask])

theorem row_of_decode (h : decode w = some i) : w &&& (rowOf i).mask = (rowOf i).bits := by
  rw [← encode_of_decode h]
  exact (selects_iff _ _).1 (selects_encode i)

theorem isSome_decodeNibbles_of_selects (i : Instr) (h : (rowOf i).selects (wordOf d1 d2 d3 d4) = true) :
    (decodeNibbles d1 d2 d3 d4).isSome := by
  cases i
  all_goals -- the nibbles the row fixes
    rw [rowOf, selects_wordOf] at h
    simp [nibble1, nibble2, nibble3, nibble4] at h
  case nop | cls | ret => simp [h, decodeNibbles, decode0]
  case skpVx | sknpVx => simp [h, decodeNibbles, decodeE]
  case ldVxDT | ldVxK | ldDTVx | ldSTVx | addIVx | ldFVx | ldBVx | ldMemVx | ldVxMem =>
    simp [h, decodeNibbles, decodeF]
  all_goals simp [h, decodeNibbles, decode8]

/-- A word that a row selects decodes, and by uniqueness to an instruction of that row. -/
theorem decode_of_row {r : OpcodeRow} (hr : r ∈ opcodeRows) (h : w &&& r.mask = r.bits) :
    ∃ i, decode w = some i ∧ rowOf i = r := by
  obtain ⟨j, -, rfl⟩ := List.mem_map.1 hr
  have hsel : (rowOf j).selects (wordOf (nibble1 w) (nibble2 w) (nibble3 w) (nibble4 w)) = true := by
    rwa [wordOf_nibbles, selects_iff]
  obtain ⟨i, hi⟩ := Option.isSome_iff_exists.1 (isSome_decodeNibbles_of_selects j hsel)
  exact ⟨i, hi, opcodeRow_unique (rowOf_mem_opcodeRows i) hr (row_of_decode hi) h⟩

/-! The words that are no instruction (R81). -/

theorem append_eq_iff {nn : Byte} : d3 ++ d4 = nn ↔ d3 = nn.extractLsb' 4 4 ∧ d4 = nn.extractLsb' 0 4 := by
  constructor
  · rintro rfl
    exact ⟨(extract_immNn_high d3 d4).symm, (extract_immNn_low d3 d4).symm⟩
  · rintro ⟨rfl, rfl⟩
    exact immNn_extract nn

theorem append_append_eq_iff {nnn : Imm12} : d2 ++ d3 ++ d4 = nnn ↔
    d2 = nnn.extractLsb' 8 4 ∧ d3 = nnn.extractLsb' 4 4 ∧ d4 = nnn.extractLsb' 0 4 := by
  constructor
  · rintro rfl
    exact ⟨(extract_immNnn_high d2 d3 d4).symm, (extract_immNnn_mid d2 d3 d4).symm, (extract_immNnn_low d2 d3 d4).symm⟩
  · rintro ⟨rfl, rfl, rfl⟩
    exact immNnn_extract nnn

theorem decode0_eq_none : decode0 d2 d3 d4 = none ↔
    d2 ++ d3 ++ d4 ≠ 0x000#12 ∧ d2 ++ d3 ++ d4 ≠ 0x0E0#12 ∧ d2 ++ d3 ++ d4 ≠ 0x0EE#12 := by
  simp only [ne_eq, append_append_eq_iff]
  unfold decode0
  split <;> simp_all [← BitVec.toNat_inj]

theorem decode8_eq_none : decode8 x y d4 = none ↔ d4 ∈ [0x8, 0x9, 0xA, 0xB, 0xC, 0xD, 0xF] := by
  simp only [List.mem_cons, List.not_mem_nil, or_false, ← BitVec.toNat_inj]
  unfold decode8
  split
  case h_10 => -- none of the nine operations: the seven nibbles that are left
    have := d4.isLt
    simp only [imp_false, BitVec.ofNat_eq_ofNat, BitVec.reduceToNat, true_iff] at *
    omega
  all_goals simp_all

theorem decodeE_eq_none : decodeE x d3 d4 = none ↔ d3 ++ d4 ∉ [0x9E#8, 0xA1#8] := by
  simp only [List.mem_cons, List.not_mem_nil, or_false, append_eq_iff]
  unfold decodeE
  split <;> simp_all [← BitVec.toNat_inj]

theorem decodeF_eq_none : decodeF x d3 d4 = none ↔
    d3 ++ d4 ∉ [0x07#8, 0x0A#8, 0x15#8, 0x18#8, 0x1E#8, 0x29#8, 0x33#8, 0x55#8, 0x65#8] := by
  simp only [List.mem_cons, List.not_mem_nil, or_false, append_eq_iff]
  unfold decodeF
  split <;> simp_all [← BitVec.toNat_inj]

end Sys2Proof

/-! PROOFS: encoding. What a running machine's step does with the word it fetched. -/

namespace Sys2Proof.Machine

variable {s : State} {w : Word}

theorem step_of_decode_some {i : Instr} (hf : s.fault = none) (hw : s.fetch = some w) (hi : decode w = some i) :
    step s = exec i s := by
  simp [step, hf, hw, hi]

theorem step_of_decode_none (hf : s.fault = none) (hw : s.fetch = some w) (hi : decode w = none) :
    step s = .next (s.withFault .unknownOpcode (some w) s.pc.toNat) := by
  simp [step, hf, hw, hi, raise]

end Sys2Proof.Machine

/-! PROOFS: encoding. The statements about the encoding and the step. -/

namespace Sys2Proof.Claims

open Sys2Proof.Machine

/-- Settles O1, by the format of each instruction. -/
theorem decodeOfEncodeIsTheInstruction : Obligations.DecodeOfEncodeIsTheInstruction := fun i rest =>
  ⟨decode_encode i, decodeBytes_encodeBytes i rest⟩

/-- Settles O2: the decoder's tables give instructions with the nibbles they were asked for. -/
theorem encodeOfDecodeIsTheWord : Obligations.EncodeOfDecodeIsTheWord := fun _ _ => encode_of_decode

/-- Settles O3: two rows differ in a bit both masks keep, and a word decodes exactly where a row selects it. -/
theorem decodeReturnsTheUniqueMatchingRow : Obligations.DecodeReturnsTheUniqueMatchingRow := by
  refine ⟨rfl, fun w r hr q hq => opcodeRow_unique hr hq, fun w i h => ⟨rowOf_mem_opcodeRows i, row_of_decode h⟩,
    fun w r => decode_of_row, fun s w hf hw hno => ?_⟩
  have hnone : decode w = none := Option.eq_none_iff_forall_ne_some.2 fun i hi =>
    hno _ (rowOf_mem_opcodeRows i) (row_of_decode hi)
  exact step_of_decode_none hf hw hnone

/-- Settles O4, by the leading nibble: four of them have a table, two want a zero last nibble, and the others have no
unknown word. -/
theorem unknownWordsByLeadingNibble : Obligations.UnknownWordsByLeadingNibble := by
  intro d1 d2 d3 d4
  rw [← decode0_eq_none, ← decode8_eq_none (x := nibbleNumber d2) (y := nibbleNumber d3),
    ← decodeE_eq_none (x := nibbleNumber d2), ← decodeF_eq_none (x := nibbleNumber d2), ← wordOf, decode_wordOf]
  unfold decodeNibbles
  split
  case h_17 => -- no nibble is left
    have := d1.isLt
    simp only [imp_false] at *
    omega
  all_goals
    rename_i h1
    simp [← BitVec.toNat_inj, h1]

/-- Settles O5, by running the decoder. -/
theorem sampleWordsDecode : Obligations.SampleWordsDecode := by
  unfold Obligations.SampleWordsDecode
  decide

/-- Settles O6: PC is where a fetch succeeds. -/
theorem stepRunsTheDecodedInstruction : Obligations.StepRunsTheDecodedInstruction := fun _ _ hf hpc hi =>
  step_of_decode_some hf (fetch_some hpc) hi

end Sys2Proof.Claims

/-! PROOFS: control flow. The words of formats A and XB (30_encoding.md R73) as their fields in a row. -/

namespace Sys2Proof

/-- A word is its leading nibble, then the immediate nnn (R71). -/
theorem wordOf_eq_append_immNnn (d1 d2 d3 d4 : Nibble) : wordOf d1 d2 d3 d4 = d1 ++ immNnn d2 d3 d4 := by
  simp only [wordOf, immNnn, BitVec.append_assoc, BitVec.cast_eq]

/-- A word is its two leading nibbles, then the immediate nn (R71). -/
theorem wordOf_eq_append_immNn (d1 d2 d3 d4 : Nibble) : wordOf d1 d2 d3 d4 = d1 ++ d2 ++ immNn d3 d4 :=
  BitVec.append_assoc

theorem encodeA_eq_append (d1 : Nibble) (nnn : Imm12) : encodeA d1 nnn = d1 ++ nnn := by
  rw [encodeA, wordOf_eq_append_immNnn, immNnn_extract]

theorem encodeXB_eq_append (d1 : Nibble) (x : Reg) (nn : Byte) :
    encodeXB d1 x nn = d1 ++ (BitVec.ofFin x : Nibble) ++ nn := by
  rw [encodeXB, wordOf_eq_append_immNn, immNn_extract]

end Sys2Proof

/-! PROOFS: control flow. What the call, the return and a halted machine's step answer, and the addresses of a jump. -/

namespace Sys2Proof.Machine

variable {s : State}

theorem step_of_halted (h : s.fault ≠ none) : step s = .next s := by
  obtain ⟨r, hr⟩ := Option.ne_none_iff_exists'.1 h
  simp [step, hr]

theorem exec_callNnn (h : s.sp.val < 16) (nnn : Imm12) :
    exec (.callNnn nnn) s = .next ((s.advance.push s.advance.pc).setPC (addrNnn nnn)) :=
  checked_of_none s ((State.pushCheck_eq s).2 h) _ _

theorem exec_ret (h : 0 < s.sp.val) : exec .ret s = .next s.advance.popPC :=
  checked_of_none s ((State.popCheck_eq s).2 h) _ _

/-- A jump to the instruction's own address takes the fetch advance back. -/
@[simp] theorem State.setPC_advance_self (s : State) : s.advance.setPC s.pc = s := rfl

theorem addrNnn_toNat (nnn : Imm12) : (addrNnn nnn).toNat = nnn.toNat :=
  BitVec.toNat_setWidth_of_le (by decide)

/-- The sum of a byte and a 12-bit immediate never wraps (R112). -/
theorem zextByte_add_addrNnn_toNat (b : Byte) (nnn : Imm12) :
    (zextByte b + addrNnn nnn).toNat = b.toNat + nnn.toNat := by
  have hb : (zextByte b).toNat = b.toNat := BitVec.toNat_setWidth_of_le (by decide)
  rw [BitVec.toNat_add, hb, addrNnn_toNat]
  omega

end Sys2Proof.Machine

/-! PROOFS: control flow. The statements about control flow. -/

namespace Sys2Proof.Claims

open Sys2Proof.Machine

variable {s t : State}

/-- An instruction that answers its effect sets PC as R25's table says, and keeps all but the parts it writes. -/
theorem exec_pc_and_frame {i : Instr} (h : exec i s = .next t) (he : Effect i s t) :
    ∃ u, exec i s = .next u ∧ u.pc = pcAfter i s ∧ KeepsAllBut (partsWritten i) s u :=
  ⟨t, h, pc_of_effect he, keepsAllBut_of_effect he⟩

theorem callNnn_raises (h : s.sp.val = 16) (nnn : Imm12) : Raises (.callNnn nnn) s .stackOverflow s.pc.toNat :=
  checked_of_some s (check := s.pushCheck) (if_pos h) _ _

theorem ret_raises (h : s.sp.val = 0) : Raises .ret s .stackUnderflow s.pc.toNat :=
  checked_of_some s (check := s.popCheck) (if_pos h) _ _

/-- Settles O27: the push writes the advanced PC into slot SP, and a full stack fails its check. -/
theorem callPushesTheReturnAddress : Obligations.CallPushesTheReturnAddress := by
  intro s nnn
  refine ⟨encodeA_eq_append _ _, fun hsp => ?_, fun hsp => callNnn_raises hsp nnn⟩
  have hframe : KeepsAllBut [.stack] s ((s.advance.push s.advance.pc).setPC (addrNnn nnn)) :=
    keepsAllBut_of_effect (i := .callNnn nnn) ⟨hsp, rfl⟩
  exact ⟨_, exec_callNnn hsp nnn, addrNnn_toNat nnn, State.push_sp (s := s.advance) hsp _,
    State.push_slot (s := s.advance) hsp _, hframe⟩

/-- Settles O28: the pop takes PC from the slot below SP, and an empty stack fails its check. -/
theorem returnPopsThePc : Obligations.ReturnPopsThePc := by
  refine ⟨rfl, fun s => ⟨fun k hk => ?_, ret_raises⟩⟩
  have hsp : 0 < s.sp.val := by omega
  have hpc : s.advance.popPC.pc = s.stack[k] := by
    simp [State.popPC_pc (s := s.advance) hsp, hk]
  have hspk : s.advance.popPC.sp.val = k.val := by
    simp [State.popPC_sp (s := s.advance) hsp, hk]
  have hframe : KeepsAllBut [.stack] s s.advance.popPC := keepsAllBut_of_effect (i := .ret) ⟨hsp, rfl⟩
  exact ⟨_, exec_ret hsp, hpc, hspk, State.popPC_stack _, hframe⟩

/-- Settles O29: the return pops the slot the call has just pushed. -/
theorem returnUndoesCall : Obligations.ReturnUndoesCall := by
  intro s nnn hsp
  obtain ⟨-, hcall, -⟩ := callPushesTheReturnAddress s nnn
  obtain ⟨t, ht, -, htsp, hslot, hst⟩ := hcall hsp
  obtain ⟨hret, -⟩ := returnPopsThePc.2 t
  obtain ⟨u, hu, hpc, husp, -, htu⟩ := hret ⟨s.sp.val, hsp⟩ htsp
  have hreturn : t.stack[(⟨s.sp.val, hsp⟩ : Fin 16)] = s.pc + 2 := (hslot _).trans (if_pos rfl)
  exact ⟨t, u, ht, hu, hpc.trans hreturn, Fin.ext husp, hst.trans htu⟩

/-- Settles O24: the effect of 0000 is the fetch advance. -/
theorem nopOnlyAdvances : Obligations.NopOnlyAdvances :=
  ⟨rfl, fun _ => exec_pc_and_frame (i := .nop) rfl rfl⟩

/-- Settles O25: both jumps set PC alone, and neither sum wraps. -/
theorem jumpsSetThePc : Obligations.JumpsSetThePc := fun _ nnn =>
  ⟨encodeA_eq_append _ _, encodeA_eq_append _ _,
    ⟨_, rfl, addrNnn_toNat nnn, keepsAllBut_of_effect (i := .jpNnn nnn) rfl⟩,
    ⟨_, rfl, zextByte_add_addrNnn_toNat _ nnn, keepsAllBut_of_effect (i := .jpV0Nnn nnn) rfl⟩⟩

/-- Settles O26: a halted machine's step changes nothing, and a running one's jump takes the fetch advance back. -/
theorem jumpToSelfIsAFixedPoint : Obligations.JumpToSelfIsAFixedPoint := by
  intro s nnn hself hw
  by_cases hf : s.fault = none
  · have hdecode : decode (0x1#4 ++ nnn) = some (.jpNnn nnn) := by
      rw [← encodeA_eq_append]
      exact decode_encode (.jpNnn nnn)
    have htarget : addrNnn nnn = s.pc := BitVec.eq_of_toNat_eq ((addrNnn_toNat nnn).trans hself)
    calc step s = .next (s.advance.setPC (addrNnn nnn)) := step_of_decode_some hf hw hdecode
      _ = .next s := by rw [htarget, State.setPC_advance_self]
  · exact step_of_halted hf

/-- Settles O30: each skip's effect on PC is R25's row for it, with its comparison written as a proposition. -/
theorem skipsCompareRegisters : Obligations.SkipsCompareRegisters := by
  intro s x y nn
  refine ⟨encodeXB_eq_append _ _ _, encodeXB_eq_append _ _ _, rfl, rfl, ?_, ?_, ?_, ?_⟩
  · exact exec_pc_and_frame (i := .seVxNn x nn) rfl rfl
  · rw [decide_not]
    exact exec_pc_and_frame (i := .sneVxNn x nn) rfl rfl
  · exact exec_pc_and_frame (i := .seVxVy x y) rfl rfl
  · rw [decide_not]
    exact exec_pc_and_frame (i := .sneVxVy x y) rfl rfl

end Sys2Proof.Claims

/-! PROOFS: registers and arithmetic. What the difference, the shifts and the masked draw leave, as numbers and bits. -/

namespace Sys2Proof.Machine

variable (s : State)

/-- A difference of bytes is the difference modulo 256 (R154). -/
theorem byte_sub_toNat (p q : Byte) : (p - q).toNat = (p.toNat + 256 - q.toNat) % 256 := by
  rw [BitVec.toNat_sub]
  omega

theorem shiftedOutLow_toNat (p : Byte) : (shiftedOutLow p).toNat = p.toNat % 2 := by
  rw [shiftedOutLow, BitVec.toNat_and]
  exact Nat.and_one_is_mod p.toNat

theorem shiftedOutHigh_toNat (p : Byte) : (shiftedOutHigh p).toNat = p.toNat / 128 := by
  have hshift : (p >>> 7).toNat = p.toNat / 128 := by rw [BitVec.toNat_ushiftRight, Nat.shiftRight_eq_div_pow]
  have hlow : (shiftedOutHigh p).toNat = (p >>> 7).toNat % 2 := shiftedOutLow_toNat (p >>> 7)
  omega

theorem byte_shiftLeft_one_toNat (p : Byte) : (p <<< 1).toNat = p.toNat * 2 % 256 := by
  rw [BitVec.toNat_shiftLeft, Nat.shiftLeft_eq]

/-- With VF as destination under Unconstrained, neither the result nor the flag is written, whatever the clause order
(R141). -/
theorem State.setVAndFlag_unconstrained (h : s.params.vfAlias = .unconstrained) (o : ClauseOrder) (r g : Byte) :
    s.setVAndFlag o VF r g = (s.setV VF (Config.vfDraw s.draws)).nextDraw := by
  simp [State.setVAndFlag, h]

theorem getV_rndWith (r : Byte) (x : Reg) (nn : Byte) : (rndWith r x nn s).getV x = r &&& nn :=
  State.getV_setV_same _ _ _

end Sys2Proof.Machine

/-! PROOFS: registers and arithmetic. The statements about registers and arithmetic. -/

namespace Sys2Proof.Claims

open Sys2Proof.Machine

variable {s : State} {i : Instr} {o : ClauseOrder} {x : Reg} {r g : Byte}

theorem keepsAllBut_advance_setV (s : State) (x : Reg) (b : Byte) : KeepsAllBut [.reg x] s (s.advance.setV x b) :=
  (KeepsAllBut.advance _ s).trans (.setV (by simp) b)

/-- The two writes of a flag-writing instruction leave what R141 says: the result is last in the clause order
`flagThenResult` alone. -/
theorem writesResultAndFlag_setVAndFlag (s : State) (o : ClauseOrder) (x : Reg) (r g : Byte) :
    WritesResultAndFlag (decide (o = .flagThenResult)) s (s.advance.setVAndFlag o x r g) x r g where
  dest hx := ⟨State.getV_setVAndFlag_dest _ o r g hx, State.getV_setVAndFlag_flag _ o r g hx⟩
  textOrder hx ha := by
    subst hx
    rw [State.getV_setVAndFlag_alias, State.advance_params, ha]
    cases o <;> rfl
  flagLast hx ha := by
    subst hx
    rw [State.getV_setVAndFlag_alias, State.advance_params, ha]
  draws h := by
    have hno : ¬ (s.params.vfAlias = .unconstrained ∧ x = VF) := fun ⟨ha, hx⟩ => h.elim (· hx) (· ha)
    exact (State.draws_setVAndFlag _ o x r g).trans (if_neg hno)
  pc := State.setVAndFlag_pc _ o x r g
  frame := (KeepsAllBut.advance _ s).trans (.setVAndFlag (by simp) (by simp) (by simp) o r g)

/-- A subtraction with NOT borrow, whichever operand is the minuend. -/
theorem subtraction_sets_notBorrow {p q : Byte}
    (h : exec i s = .next (s.advance.setVAndFlag .resultThenFlag x (p - q) (notBorrowFlag p q))) :
    ∃ t d, exec i s = .next t ∧ BitVec.toNat d = (p.toNat + 256 - q.toNat) % 256 ∧
      WritesResultAndFlag false s t x d (if p.toNat < q.toNat then 0 else 1) :=
  ⟨_, p - q, h, byte_sub_toNat p q, notBorrowFlag_eq p q ▸ writesResultAndFlag_setVAndFlag s .resultThenFlag x _ _⟩

/-- A flag-writing instruction on VF under Unconstrained leaves the draw in VF, whatever its result, flag and clause
order are. -/
theorem unconstrained_vf_is_draw (hp : s.params.vfAlias = .unconstrained)
    (h : exec i s = .next (s.advance.setVAndFlag o VF r g)) :
    ∃ t, exec i s = .next t ∧ t.getV VF = Config.vfDraw s.draws ∧ t.draws = s.draws + 1 ∧ t.pc = s.pc + 2 ∧
      KeepsAllBut [.reg VF, .draws] s t := by
  rw [State.setVAndFlag_unconstrained s.advance hp] at h
  have hframe : KeepsAllBut [.reg VF, .draws] s (s.advance.setV VF (Config.vfDraw s.draws)).nextDraw :=
    ((KeepsAllBut.advance _ s).trans (.setV (by simp) _)).trans (.nextDraw (by simp))
  exact ⟨_, h, State.getV_setV_same _ _ _, rfl, rfl, hframe⟩

/-- Settles O34: the sum of bytes is the sum modulo 256, and the carry flag is what the model adds to it. -/
theorem addSetsCarry : Obligations.AddSetsCarry := fun s x y =>
  ⟨rfl, _, s.getV x + s.getV y, rfl, BitVec.toNat_add _ _,
    carryFlag_eq (s.getV x) (s.getV y) ▸ writesResultAndFlag_setVAndFlag s .resultThenFlag x _ _⟩

/-- Settles O35: both are one subtraction, with the operands in either order. -/
theorem subtractionsSetNotBorrow : Obligations.SubtractionsSetNotBorrow := fun _ _ _ =>
  ⟨rfl, rfl, subtraction_sets_notBorrow rfl, subtraction_sets_notBorrow rfl⟩

/-- Settles O36: neither meaning reads y, and the clause order of both writes the result last. -/
theorem shiftsMoveOneBitIntoVf : Obligations.ShiftsMoveOneBitIntoVf := by
  intro s x y
  have hhalf : (s.getV x >>> 1).toNat = (s.getV x).toNat / 2 := by
    rw [BitVec.toNat_ushiftRight, Nat.shiftRight_one]
  exact ⟨rfl, rfl,
    ⟨_, _, _, fun _ => rfl, hhalf, shiftedOutLow_toNat _, writesResultAndFlag_setVAndFlag s .flagThenResult x _ _⟩,
    ⟨_, _, _, fun _ => rfl, byte_shiftLeft_one_toNat _, shiftedOutHigh_toNat _,
      writesResultAndFlag_setVAndFlag s .flagThenResult x _ _⟩⟩

/-- Settles O37: all five end in the same two writes, which VF's alias turns into the draw. -/
theorem unconstrainedVfIsADraw : Obligations.UnconstrainedVfIsADraw := by
  intro s y hp i hi
  simp only [List.mem_cons, List.not_mem_nil, or_false] at hi
  obtain rfl | rfl | rfl | rfl | rfl := hi
  all_goals exact unconstrained_vf_is_draw hp rfl

/-- Settles O38: V[x] is the draw and nn, and the count of draws goes on. -/
theorem randomByteIsMaskedDraw : Obligations.RandomByteIsMaskedDraw := by
  intro s x nn
  have hbits : ∀ k, ((rndWith (Config.rand8 s.draws) x nn s).nextDraw.getV x).getLsbD k =
      ((Config.rand8 s.draws).getLsbD k && nn.getLsbD k) := fun k => by
    rw [State.getV_nextDraw, getV_rndWith, BitVec.getLsbD_and]
  exact ⟨encodeXB_eq_append _ _ _, _, rfl, rfl, rfl, hbits, keepsAllBut_of_effect (i := .rndVxNn x nn) rfl⟩

/-- Settles O32: each one writes V[x] alone, and a sum of bytes is the sum modulo 256. -/
theorem loadsAndAddImmediateWriteOneRegister : Obligations.LoadsAndAddImmediateWriteOneRegister := by
  intro s x y nn
  have hsum : ((s.advance.setV x (s.getV x + nn)).getV x).toNat = ((s.getV x).toNat + nn.toNat) % 256 := by
    rw [State.getV_setV_same, BitVec.toNat_add]
  exact ⟨encodeXB_eq_append _ _ _, encodeXB_eq_append _ _ _, rfl,
    ⟨_, rfl, State.getV_setV_same _ _ _, rfl, keepsAllBut_advance_setV s x _⟩,
    ⟨_, rfl, hsum, rfl, keepsAllBut_advance_setV s x _⟩,
    ⟨_, rfl, State.getV_setV_same _ _ _, rfl, keepsAllBut_advance_setV s x _⟩⟩

/-- Settles O33: each one writes V[x] alone, and the bits of an OR, AND and XOR are those of its operands. -/
theorem bitwiseOperationsActBitByBit : Obligations.BitwiseOperationsActBitByBit := by
  intro s x y
  refine ⟨rfl, rfl, rfl,
    ⟨_, rfl, rfl, keepsAllBut_advance_setV s x _, fun k => ?_⟩,
    ⟨_, rfl, rfl, keepsAllBut_advance_setV s x _, fun k => ?_⟩,
    ⟨_, rfl, rfl, keepsAllBut_advance_setV s x _, fun k => ?_⟩⟩
  · rw [State.getV_setV_same, BitVec.getLsbD_or]
  · rw [State.getV_setV_same, BitVec.getLsbD_and]
  · rw [State.getV_setV_same, BitVec.getLsbD_xor]

end Sys2Proof.Claims

/-! PROOFS: index and memory. CheckRange over a range and over its bytes, the index register's values, and what Fx65
answers. -/

namespace Sys2Proof.Machine

variable {s : State} {low isWrite : Bool} {base len : Nat}

/-! CheckRange (42_index_memory.md R188). -/

theorem checkRange_of_above (h0 : 0 < len) (h : base + len > 0x1000) :
    checkRange low isWrite base len =
      some (if isWrite then .memWriteOutOfBounds else .memReadOutOfBounds, max base 0x1000) := by
  rw [checkRange_eq, if_pos ⟨h0, h⟩]

theorem checkRange_of_low (h0 : 0 < len) (h : base + len ≤ 0x1000) (hlow : base < Config.programBase) :
    checkRange true true base len = some (.protectedWrite, base) := by
  rw [checkRange_eq, if_neg (by omega), if_pos ⟨rfl, rfl, h0, hlow⟩]

/-- CheckRange fails in two ways: at the first address above 0xFFF, or at the base of a range inside memory. -/
theorem checkRange_some_cases {c : Fault} {a : Nat} (h : checkRange low isWrite base len = some (c, a)) :
    0 < len ∧ (base + len > 0x1000 ∧ c = (if isWrite then .memWriteOutOfBounds else .memReadOutOfBounds) ∧
        a = max base 0x1000 ∨
      base + len ≤ 0x1000 ∧ isWrite = true ∧ low = true ∧ base < Config.programBase ∧ c = .protectedWrite ∧
        a = base) := by
  rw [checkRange_eq] at h
  split at h
  · next habove =>
    obtain ⟨rfl, rfl⟩ := Prod.mk.inj (Option.some.inj h)
    exact ⟨habove.1, .inl ⟨habove.2, rfl, rfl⟩⟩
  · split at h
    · next habove hprot =>
      obtain ⟨hw, hl, h0, hb⟩ := hprot
      obtain ⟨rfl, rfl⟩ := Prod.mk.inj (Option.some.inj h)
      exact ⟨h0, .inr ⟨by omega, hw, hl, hb, rfl, rfl⟩⟩
    · exact nomatch h

theorem checkRange_eq_none : checkRange low isWrite base len = none ↔
    (0 < len → base + len ≤ 0x1000 ∧ (isWrite = true → low = true → Config.programBase ≤ base)) := by
  obtain rfl | h0 := Nat.eq_zero_or_pos len
  · simp [checkRange_eq]
  · cases isWrite with
    | false => rw [checkRange_read_none]; simp; omega
    | true => rw [checkRange_write_none h0]; simp [h0]

/-- A byte's own check (R55, R56) passes inside memory, where no low-write check fails. -/
theorem byteFault_eq_none {a : Nat} : (if isWrite then memWriteFault low a else memReadFault a) = none ↔
    a ≤ 0xFFF ∧ (isWrite = true → low = true → Config.programBase ≤ a) := by
  cases isWrite with
  | false => simp [memReadFault]
  | true =>
    by_cases h : a > 0xFFF
    · simp [memWriteFault, h]
    · simp [memWriteFault, h, Nat.le_of_not_gt h]

theorem byteFault_of_above {a : Nat} (h : a > 0xFFF) : (if isWrite then memWriteFault low a else memReadFault a) =
    some (if isWrite then .memWriteOutOfBounds else .memReadOutOfBounds) := by
  simp only [memWriteFault, memReadFault, if_pos h]
  cases isWrite <;> rfl

theorem memWriteFault_of_low {a : Nat} (h : a < 0x200) : memWriteFault true a = some .protectedWrite := by
  rw [memWriteFault, if_neg (by omega)]
  simp [h]

/-! The index register (R181, R182, R183). -/

theorem zextByte_toNat (b : Byte) : (zextByte b).toNat = b.toNat := BitVec.toNat_setWidth_of_le (by decide)

theorem glyphAddr_toNat (b : Byte) : (glyphAddr b).toNat = b.toNat * 5 := by
  rw [glyphAddr, BitVec.toNat_mul, zextByte_toNat, show (5 : Word).toNat = 5 from rfl]
  omega

theorem byte_toNat_of_lt {n : Nat} (h : n < 256) : (BitVec.ofNat 8 n : Byte).toNat = n :=
  (BitVec.toNat_ofNat _ _).trans (Nat.mod_eq_of_lt h)

/-! Reading the range at I (R187). -/

theorem exec_ldVxMem {x : Reg} (h : s.idx.toNat + x.val ≤ 0xFFF) :
    exec (.ldVxMem x) s = .next (s.advance.loadRegs s.idx.toNat (regsUpTo x)) :=
  checked_of_none s (checkRange_read_none.2 (by omega)) _ _

end Sys2Proof.Machine

/-! PROOFS: index and memory. The form of the two instructions that store, and the first bad address of a range. -/

namespace Sys2Proof.Claims

open Sys2Proof.Machine

variable {s : State} {i : Instr} {bs : List Byte} {base len : Nat}

theorem encodeX_eq_append (d1 : Nibble) (x : Reg) (d3 d4 : Nibble) :
    encodeX d1 x d3 d4 = d1 ++ (BitVec.ofFin x : Nibble) ++ (d3 ++ d4) :=
  wordOf_eq_append_immNn _ _ _ _

theorem isFirst_above (h0 : 0 < len) (h : base + len > 0x1000) : IsFirst (· > 0xFFF) base len (max base 0x1000) :=
  ⟨by omega, by omega, by omega, fun _ _ _ => by omega⟩

theorem isFirst_base {P : Nat → Prop} (h0 : 0 < len) (h : P base) : IsFirst P base len base :=
  ⟨le_rfl, by omega, h, fun _ hle hlt => absurd hlt (by omega)⟩

/-- i stores the bytes bs from I upwards, after CheckRange over them: the form of Fx33 and Fx55 (R184, R185). -/
structure StoresAtI (i : Instr) (s : State) (bs : List Byte) : Prop where
  nonempty : 0 < bs.length
  exec_eq : exec i s = checked (s.writeCheck bs.length) (encode i) s (s.advance.storeBytes s.idx.toNat bs)

theorem storesAtI_ldBVx (s : State) (x : Reg) : StoresAtI (.ldBVx x) s (bcdDigits (s.getV x)) where
  nonempty := by simp
  exec_eq := rfl

theorem storesAtI_ldMemVx (s : State) (x : Reg) : StoresAtI (.ldMemVx x) s (s.regBytes x) where
  nonempty := by simp
  exec_eq := by rw [State.regBytes_length]; rfl

namespace StoresAtI

/-- A range that passes CheckRange takes the bytes, and nothing but memory and PC changes. -/
theorem answers (h : StoresAtI i s bs) (hm : s.memWf) (hb : s.idx.toNat + bs.length ≤ 0x1000)
    (hlow : s.params.lowWriteFault = true → 0x200 ≤ s.idx.toNat) :
    ∃ t, exec i s = .next t ∧ t.pc = s.pc + 2 ∧
      (∀ k (hk : k < bs.length), t.readByte (s.idx.toNat + k) = bs[k]) ∧
      (∀ a, a < s.idx.toNat ∨ s.idx.toNat + bs.length ≤ a → t.readByte a = s.readByte a) ∧
      KeepsAllBut [.memory] s t := by
  have hread := State.readByte_storeBytes (s := s.advance) hm hb
  refine ⟨s.advance.storeBytes s.idx.toNat bs, ?_, State.storeBytes_pc .., fun k hk => ?_, fun a ha => ?_, ?_⟩
  · exact h.exec_eq.trans (checked_of_none s ((checkRange_write_none h.nonempty).2 ⟨hb, hlow⟩) _ _)
  · simp [hread, hk]
  · rw [hread, dif_neg (by omega), State.readByte_advance]
  · exact (KeepsAllBut.advance _ s).trans (.storeBytes (by simp) _ _)

theorem raises_of_above (h : StoresAtI i s bs) (hb : s.idx.toNat + bs.length > 0x1000) :
    Raises i s .memWriteOutOfBounds (max s.idx.toNat 0x1000) :=
  h.exec_eq.trans (checked_of_some s (checkRange_of_above h.nonempty hb) _ _)

theorem raises_of_low (h : StoresAtI i s bs) (hb : s.idx.toNat + bs.length ≤ 0x1000)
    (hfault : s.params.lowWriteFault = true) (hlow : s.idx.toNat < 0x200) :
    Raises i s .protectedWrite s.idx.toNat := by
  have hcheck : s.writeCheck bs.length = some (.protectedWrite, s.idx.toNat) := by
    rw [State.writeCheck, hfault]
    exact checkRange_of_low h.nonempty hb hlow
  exact h.exec_eq.trans (checked_of_some s hcheck _ _)

end StoresAtI

end Sys2Proof.Claims

/-! PROOFS: index and memory. The statements about the index register and memory. -/

namespace Sys2Proof.Claims

open Sys2Proof.Machine

/-- Settles O44: a range passes when its last byte is inside memory and its first one passes the low-write check. -/
theorem checkRangeFindsTheFirstFailingByte : Obligations.CheckRangeFindsTheFirstFailingByte := by
  intro low isWrite base len
  simp only [byteFault_eq_none]
  refine ⟨checkRange_eq_none.trans ⟨fun h a hle hlt => ?_, fun h h0 => ?_⟩, fun c a h => ?_⟩
  · obtain ⟨hb, hlow⟩ := h (by omega)
    exact ⟨by omega, fun hw hl => (hlow hw hl).trans hle⟩
  · obtain ⟨hlast, -⟩ := h (base + len - 1) (by omega) (by omega)
    obtain ⟨-, hlow⟩ := h base le_rfl (by omega)
    exact ⟨by omega, hlow⟩
  · obtain ⟨h0, ⟨hb, rfl, rfl⟩ | ⟨hb, rfl, rfl, hlow, rfl, rfl⟩⟩ := checkRange_some_cases h
    · have hcode : (if isWrite then Fault.memWriteOutOfBounds else .memReadOutOfBounds) ≠ .protectedWrite := by
        cases isWrite <;> decide
      exact ⟨byteFault_of_above (by omega), fun hc => absurd hc hcode, fun _ => isFirst_above h0 hb⟩
    · exact ⟨memWriteFault_of_low hlow, fun _ => ⟨isFirst_base h0 hlow, fun _ _ _ => by omega⟩,
        fun hc => absurd rfl hc⟩

/-- Settles O40: Fx33 stores three bytes at I, and each digit fits in its byte. -/
theorem bcdStoresThreeDigits : Obligations.BcdStoresThreeDigits := by
  intro s x
  have hstores := storesAtI_ldBVx s x
  have hlen : (bcdDigits (s.getV x)).length = 3 := rfl
  refine ⟨encodeX_eq_append _ _ _ _, fun hm hb hlow => ?_, fun hb => hstores.raises_of_above (by omega),
    fun hfault hlow => hstores.raises_of_low (by omega) hfault hlow⟩
  obtain ⟨t, ht, hpc, hbytes, hrest, hframe⟩ := hstores.answers hm (by omega) hlow
  have hx : (s.getV x).toNat < 256 := (s.getV x).isLt
  refine ⟨t, ht, hpc, ?_, ?_, ?_, fun a ha => hrest a (by omega), hframe⟩
  · exact (congrArg BitVec.toNat (hbytes 0 (by simp))).trans (byte_toNat_of_lt (by omega))
  · exact (congrArg BitVec.toNat (hbytes 1 (by simp))).trans (byte_toNat_of_lt (by omega))
  · exact (congrArg BitVec.toNat (hbytes 2 (by simp))).trans (byte_toNat_of_lt (by omega))

/-- Settles O41: Fx55 stores V0..Vx as x + 1 bytes at I. -/
theorem storeRegistersWritesTheRange : Obligations.StoreRegistersWritesTheRange := by
  intro s x
  have hstores := storesAtI_ldMemVx s x
  have hlen := State.regBytes_length s x
  refine ⟨encodeX_eq_append _ _ _ _, fun hm hb hlow => ?_, fun hb => hstores.raises_of_above (by omega),
    fun hfault hlow => hstores.raises_of_low (by omega) hfault hlow⟩
  obtain ⟨t, ht, hpc, hbytes, hrest, hframe⟩ := hstores.answers hm (by omega) hlow
  have hregs : ∀ k : Reg, k ≤ x → t.readByte (s.idx.toNat + k.val) = s.getV k := fun k hk => by
    rw [hbytes k.val (by rw [Fin.le_def] at hk; omega), State.regBytes_get]
  exact ⟨t, ht, hpc, hregs, fun a ha => hrest a (by omega), hframe⟩

/-- Settles O42: Fx65 writes V0..Vx, each with the byte at I plus its number. -/
theorem loadRegistersReadsTheRange : Obligations.LoadRegistersReadsTheRange := by
  intro s x
  refine ⟨encodeX_eq_append _ _ _ _, fun hb => ?_, fun hb => ?_⟩
  · have hregs : ∀ k, (s.advance.loadRegs s.idx.toNat (regsUpTo x)).getV k =
        if k ≤ x then s.readByte (s.idx.toNat + k.val) else s.getV k := fun k => by
      simp [State.getV_loadRegs, mem_regsUpTo]
    have hparts : ∀ k ∈ regsUpTo x, Part.reg k ∈ (regsUpTo x).map Part.reg := fun _ => List.mem_map_of_mem
    exact ⟨_, exec_ldVxMem hb, State.loadRegs_pc .., hregs, (KeepsAllBut.advance _ s).trans (.loadRegs hparts _)⟩
  · exact checked_of_some s (check := s.readCheck (x.val + 1)) (checkRange_of_above (by omega) (by omega)) _ _

/-- Settles O45: none of the four writes I, and Fx65 reads the bytes that Fx55 has stored. -/
theorem storeThenLoadReproducesRegisters : Obligations.StoreThenLoadReproducesRegisters := by
  refine ⟨fun s t x y n i hi h => ?_, fun s t u x hm h hf hidx hmem => ?_⟩
  · have hkept : .index ∉ partsWritten i := by
      simp only [List.mem_cons, List.not_mem_nil, or_false] at hi
      obtain rfl | rfl | rfl | rfl := hi <;> simp [index_mem_partsWritten]
    obtain ⟨c, a, rfl, -⟩ | he := exec_cases h
    · rfl
    · exact (keepsAllBut_of_effect he).index hkept
  · obtain ⟨hb, hlow, -⟩ := effect_of_exec h hf
    obtain ⟨-, hstore, -⟩ := storeRegistersWritesTheRange s x
    obtain ⟨t', ht', -, hbytes, -, hframe⟩ := hstore hm (by omega) hlow
    obtain rfl := Host.Outcome.next.inj (ht'.symm.trans h)
    obtain ⟨-, hload, -⟩ := loadRegistersReadsTheRange u x
    have hbase : u.idx = s.idx := hidx.trans (hframe.index (by simp))
    obtain ⟨w, hw, -, hregs, -⟩ := hload (by rw [hbase]; omega)
    exact ⟨w, hw, fun k hk => by rw [hregs, if_pos hk, hbase, hmem, hbytes k hk]⟩

/-- Settles O39: each one sets I alone, and neither nnn nor five times a byte wraps. -/
theorem indexInstructionsWriteI : Obligations.IndexInstructionsWriteI := by
  intro s x nnn
  have hsum : (s.idx + zextByte (s.getV x)).toNat = (s.idx.toNat + (s.getV x).toNat) % 2 ^ 16 := by
    rw [BitVec.toNat_add, zextByte_toNat]
  exact ⟨encodeA_eq_append _ _, encodeX_eq_append _ _ _ _, encodeX_eq_append _ _ _ _,
    ⟨_, rfl, addrNnn_toNat nnn, rfl, keepsAllBut_of_effect (i := .ldINnn nnn) rfl⟩,
    ⟨_, rfl, hsum, rfl, keepsAllBut_of_effect (i := .addIVx x) rfl⟩,
    ⟨_, rfl, glyphAddr_toNat _, rfl, keepsAllBut_of_effect (i := .ldFVx x) rfl⟩⟩

end Sys2Proof.Claims

/-! PROOFS: the display. The state a sprite draw leaves, its pixels and its registers, and the screen after two equal
draws under Xor. -/

namespace Sys2Proof.Machine

variable {s t : State} {x y : Reg}

/-- The state Dxyn leaves when its range check passes (R202). -/
def State.drawn (s : State) (x y : Reg) (n : Nat) : State :=
  { s.advance with fb := drawPixels s.params.drawMode s.fb (s.spriteAt x y n) }.setV VF
    (flagByte (collides s.fb (s.spriteAt x y n)))

theorem effect_drwVxVyN {n : Fin 16} : Effect (.drwVxVyN x y n) s t ↔
    (n.val = 0 ∨ s.idx.toNat + n.val ≤ 0x1000) ∧ t = s.drawn x y n.val := Iff.rfl

theorem exec_drwVxVyN {n : Fin 16} (h : n.val = 0 ∨ s.idx.toNat + n.val ≤ 0x1000) :
    exec (.drwVxVyN x y n) s = .next (s.drawn x y n.val) :=
  checked_of_none s (checkRange_read_none.2 h) _ _

theorem State.drawn_fb (n : Nat) :
    (s.drawn x y n).fb = drawPixels s.params.drawMode s.fb (s.spriteAt x y n) := rfl

theorem State.getV_drawn (n : Nat) (r : Reg) : (s.drawn x y n).getV r =
    if r = VF then flagByte (collides s.fb (s.spriteAt x y n)) else s.getV r :=
  State.getV_setV _ VF r _

/-- A draw of no rows has no pixels to update and none to collide with (R206). -/
theorem State.drawn_zero : s.drawn x y 0 = s.advance.setV VF 0 := rfl

/-- The registers after Dxyn, whether or not it faults: DRAW_MODE has no part in them (R205). -/
theorem getV_of_exec_drwVxVyN {n : Fin 16} (h : exec (.drwVxVyN x y n) s = .next t) (r : Reg) :
    t.getV r = if s.readCheck n.val = none then (s.drawn x y n.val).getV r else s.getV r := by
  obtain ⟨hcheck, rfl⟩ | ⟨c, a, hcheck, rfl⟩ := checked_cases h
  · rw [if_pos hcheck, State.drawn]
  · rw [hcheck, if_neg (by simp), State.getV_withFault]

theorem collides_eq_false {old : Frame} {dests : List Pixel} :
    collides old dests = false ↔ ∀ q ∈ dests, old.pixel q = false := by
  simp [collides]

/-- A pixel toggled by both draws or by neither is as it was (R204). -/
theorem drawPixels_xor_twice (old : Frame) (dests : List Pixel) :
    drawPixels .xor (drawPixels .xor old dests) dests = old := by
  refine Frame.ext_pixel fun p => ?_
  simp only [drawPixels_pixel]
  by_cases hp : p ∈ dests
  · simp only [if_pos hp, updatePixel, Bool.not_not]
  · simp only [if_neg hp]

/-- Offsets below the screen's size stay distinct when they wrap (R207). -/
theorem spriteDest_injective {px0 py0 : Byte} {row row' col col' : Nat} (hrow : row < 32) (hrow' : row' < 32)
    (hcol : col < 64) (hcol' : col' < 64) (h : spriteDest px0 py0 row col = spriteDest px0 py0 row' col') :
    row = row' ∧ col = col' := by
  simp only [spriteDest, Prod.mk.injEq, Fin.mk.injEq] at h
  obtain ⟨hx, hy⟩ := h
  exact ⟨by omega, by omega⟩

end Sys2Proof.Machine

/-! PROOFS: the display. The statements about the framebuffer. -/

namespace Sys2Proof.Claims

open Sys2Proof.Machine

variable {s t : State} {x y : Reg} {n : Nat}

theorem covered_iff_mem_spriteAt {p : Pixel} : Covered s x y n p ↔ p ∈ s.spriteAt x y n := by
  simp only [Covered, State.mem_spriteAt, spriteBit, spriteDest, Prod.ext_iff, Fin.ext_iff]

/-- The sprite of a Dxyn whose coordinates are not VF is the same after a draw. -/
theorem spriteAt_of_keepsAllBut (h : KeepsAllBut [.reg VF, .screen] s t) (hx : x ≠ VF) (hy : y ≠ VF) :
    t.spriteAt x y n = s.spriteAt x y n := by
  have hread : t.readByte = s.readByte := funext (h.memory (by simp))
  rw [State.spriteAt, State.spriteAt, State.readBytes, State.readBytes, h.reg x (by simp [hx]), h.reg y (by simp [hy]),
    h.index (by simp), hread]

/-- Settles O48: the pixels under set bits are the sprite's pixel list, and past 0xFFF the range check fails first. -/
theorem drawUpdatesCoveredPixels : Obligations.DrawUpdatesCoveredPixels := by
  intro s x y n
  simp only [covered_iff_mem_spriteAt]
  have hvf : (s.drawn x y n.val).getV VF = flagByte (collides s.fb (s.spriteAt x y n.val)) :=
    (State.getV_drawn _ _).trans (if_pos rfl)
  refine ⟨rfl, fun hb => ⟨_, exec_drwVxVyN (by omega), rfl, fun p hp => ?_, fun p hp => ?_, fun hhit => ?_,
    fun hmiss => ?_, keepsAllBut_of_effect (effect_drwVxVyN.2 ⟨by omega, rfl⟩)⟩, fun h0 hb => ?_⟩
  · rw [State.drawn_fb, drawPixels_pixel, if_pos hp]
    exact ⟨fun hmode => by rw [hmode, updatePixel], fun hmode => by rw [hmode, updatePixel]⟩
  · rw [State.drawn_fb, drawPixels_pixel, if_neg hp]
  · rw [hvf, collides_iff.2 hhit]
    rfl
  · rw [hvf, collides_eq_false.2 hmiss]
    rfl
  · exact checked_of_some s (check := s.readCheck n.val) (checkRange_of_above (by omega) (by omega)) _ _

/-- Settles O49: neither the range check nor the collision reads DRAW_MODE. -/
theorem collisionDoesNotDependOnDrawMode : Obligations.CollisionDoesNotDependOnDrawMode := by
  intro s t u x y n mode ht hu r
  rw [getV_of_exec_drwVxVyN ht, getV_of_exec_drwVxVyN hu, State.getV_drawn, State.getV_drawn]
  rfl

/-- Settles O51: the second draw passes the same check, has the same sprite, and toggles the same pixels back. -/
theorem xorDrawTwiceRestoresTheScreen : Obligations.XorDrawTwiceRestoresTheScreen := by
  intro s t u x y n hmode hx hy ht hf hu
  have heffect := effect_of_exec ht hf
  have hframe := keepsAllBut_of_effect heffect
  obtain ⟨hb, rfl⟩ := effect_drwVxVyN.1 heffect
  have hsecond : exec (.drwVxVyN x y n) (s.drawn x y n.val) = .next ((s.drawn x y n.val).drawn x y n.val) :=
    exec_drwVxVyN hb
  obtain rfl := Host.Outcome.next.inj (hsecond.symm.trans hu)
  rw [State.drawn_fb, spriteAt_of_keepsAllBut hframe hx hy, hframe.params, State.drawn_fb, hmode, drawPixels_xor_twice]

/-- Settles O52: 15 rows and 8 columns lie within one turn of the screen. -/
theorem spriteBitsLandOnDistinctPixels : Obligations.SpriteBitsLandOnDistinctPixels :=
  fun _ _ _ _ _ _ hrow hrow' hcol hcol' =>
    spriteDest_injective (by omega) (by omega) (by omega) (by omega)

/-- Settles O47: the effect of 00E0 is the fetch advance and the blank frame. -/
theorem clearTurnsEveryPixelOff : Obligations.ClearTurnsEveryPixelOff :=
  ⟨rfl, fun _ => ⟨_, rfl, rfl, blankFrame_pixel, keepsAllBut_of_effect (i := .cls) rfl⟩⟩

/-- Settles O50: a range of no bytes passes its check wherever I points. -/
theorem drawOfNoRowsOnlyClearsVf : Obligations.DrawOfNoRowsOnlyClearsVf := fun s _ _ =>
  ⟨_, (exec_drwVxVyN (.inl rfl)).trans (congrArg _ State.drawn_zero), rfl, State.getV_setV_same _ VF 0,
    keepsAllBut_advance_setV s VF 0⟩

end Sys2Proof.Claims

/-! PROOFS: keypad and timers. The key a byte names, the first pressed key, and what the keypad instructions answer. -/

namespace Sys2Proof.Machine

variable {s : State} {x : Reg} {b : Byte} {k : Key}

/-! The skips on a key (R221, R222, R227). -/

theorem keyOf_of_toNat_eq (h : b.toNat = k.val) : keyOf b = some k := by
  have hlt : b.toNat < 16 := by omega
  rw [keyOf_of_lt hlt]
  exact congrArg some (Fin.ext h)

theorem State.keyCheck_of_key (h : keyOf b = some k) : s.keyCheck b = none := by
  rw [State.keyCheck, h]

theorem State.keyCheck_of_gt (h : b.toNat > 0xF) : s.keyCheck b = some (.keyIndexOutOfRange, s.pc.toNat) := by
  rw [State.keyCheck, keyOf_of_ge (by omega)]

theorem State.keyPressed_of_key (h : keyOf b = some k) : s.keyPressed b = s.key[k] := by
  rw [State.keyPressed, h]

theorem exec_skpVx (h : keyOf (s.getV x) = some k) :
    exec (.skpVx x) s = .next (s.advance.skipIf s.key[k]) := by
  rw [← State.keyPressed_of_key h]
  exact checked_of_none s (State.keyCheck_of_key h) _ _

theorem exec_sknpVx (h : keyOf (s.getV x) = some k) :
    exec (.sknpVx x) s = .next (s.advance.skipIf (!s.key[k])) := by
  rw [← State.keyPressed_of_key h]
  exact checked_of_none s (State.keyCheck_of_key h) _ _

/-! The wait for a key (R224). -/

/-- The scan stops at a pressed key with no lower one pressed: it can stop neither below nor above it. -/
theorem State.firstKey_eq_some (hk : s.key[k] = true) (hlow : ∀ j : Key, j < k → s.key[j] = false) :
    s.firstKey = some k := by
  cases hfirst : s.firstKey with
  | none => exact absurd hk (by simp [State.firstKey_none hfirst k])
  | some i =>
    obtain ⟨hi, hlow'⟩ := State.firstKey_some hfirst
    obtain hlt | rfl | hgt := lt_trichotomy i k
    · exact absurd hi (by simp [hlow i hlt])
    · rfl
    · exact absurd hk (by simp [hlow' k hgt])

theorem State.firstKey_eq_none (h : ∀ k : Key, s.key[k] = false) : s.firstKey = none :=
  List.find?_eq_none.2 fun k _ => by simp [h k]

theorem exec_ldVxK_of_some (h : s.firstKey = some k) :
    exec (.ldVxK x) s = .next (s.advance.setV x (BitVec.ofNat 8 k.val)) := by
  simp only [exec, execLdVxK, h]

/-- A waiting Fx0A leaves the state as it is: the rewind takes the fetch advance back. -/
theorem exec_ldVxK_of_none (h : s.firstKey = none) : exec (.ldVxK x) s = .next s := by
  simp only [exec, execLdVxK, h, State.rewind_advance]

end Sys2Proof.Machine

/-! PROOFS: keypad and timers. The statements about the keypad and the timers. -/

namespace Sys2Proof.Claims

open Sys2Proof.Machine

theorem keepsAllBut_advance_skipIf (s : State) (c : Bool) : KeepsAllBut [] s (s.advance.skipIf c) :=
  (KeepsAllBut.advance _ s).trans (.skipIf c)

/-- Settles O31: a byte up to 0xF names the key whose flag both skips read, and a greater one fails their check. -/
theorem skipsReadTheKeypad : Obligations.SkipsReadTheKeypad := by
  intro s x
  refine ⟨encodeX_eq_append _ _ _ _, encodeX_eq_append _ _ _ _, fun k hk => ?_, fun hgt => ?_⟩
  · have hkey : keyOf (s.getV x) = some k := keyOf_of_toNat_eq hk
    exact ⟨⟨_, exec_skpVx hkey, skipIf_advance_pc s _, keepsAllBut_advance_skipIf s _⟩,
      ⟨_, exec_sknpVx hkey, skipIf_advance_pc s _, keepsAllBut_advance_skipIf s _⟩⟩
  · have hcheck := State.keyCheck_of_gt (s := s) hgt
    exact ⟨checked_of_some s hcheck _ _, checked_of_some s hcheck _ _⟩

/-- Settles O54: the scan finds the lowest pressed key, whose number fits in the byte, or none. -/
theorem keyWaitTakesTheLowestPressedKey : Obligations.KeyWaitTakesTheLowestPressedKey := by
  intro s x
  refine ⟨encodeX_eq_append _ _ _ _, fun k hk hlow => ?_,
    fun hnone => exec_ldVxK_of_none (State.firstKey_eq_none hnone)⟩
  have hvalue : ((s.advance.setV x (BitVec.ofNat 8 k.val)).getV x).toNat = k.val := by
    rw [State.getV_setV_same, byte_toNat_of_lt (by omega)]
  exact ⟨_, exec_ldVxK_of_some (State.firstKey_eq_some hk hlow), hvalue, rfl, keepsAllBut_advance_setV s x _⟩

/-- Settles O53: each of the three is one assignment after the fetch advance. -/
theorem timerInstructionsMoveOneByte : Obligations.TimerInstructionsMoveOneByte := fun s x =>
  ⟨encodeX_eq_append _ _ _ _, encodeX_eq_append _ _ _ _, encodeX_eq_append _ _ _ _,
    ⟨_, rfl, State.getV_setV_same _ _ _, rfl, keepsAllBut_advance_setV s x _⟩,
    ⟨_, rfl, rfl, rfl, keepsAllBut_of_effect (i := .ldDTVx x) rfl⟩,
    ⟨_, rfl, rfl, rfl, keepsAllBut_of_effect (i := .ldSTVx x) rfl⟩⟩

end Sys2Proof.Claims

/-! PROOFS: exceptions. What each transaction answers, and the checks that raise a fault. -/

namespace Sys2Proof.Machine

variable {s : State} {index : Nat} {bytes : List Byte}

/-! Every instruction, step and transaction answers a next state (log entry 3). -/

theorem checked_answers_next (check : Option (Fault × Nat)) (w : Word) (s done : State) :
    ∃ t, checked check w s done = .next t := by
  cases check with
  | none => exact ⟨_, rfl⟩
  | some e => exact ⟨_, rfl⟩

theorem exec_answers_next (i : Instr) (s : State) : ∃ t, exec i s = .next t := by
  cases i
  case ret | callNnn | drwVxVyN | skpVx | sknpVx | ldBVx | ldMemVx | ldVxMem => exact checked_answers_next _ _ _ _
  case ldVxK =>
    cases h : s.firstKey with
    | some k => exact ⟨_, exec_ldVxK_of_some h⟩
    | none => exact ⟨_, exec_ldVxK_of_none h⟩
  all_goals exact ⟨_, rfl⟩ -- the instructions with no check of their own

theorem step_answers_next (s : State) : ∃ t, step s = .next t := by
  unfold step
  split
  · exact ⟨_, rfl⟩
  · split
    · exact ⟨_, rfl⟩
    · split
      · exact ⟨_, rfl⟩
      · exact exec_answers_next _ s

theorem transact_answers_next (tr : Transaction) (s : State) : ∃ t, transact tr s = .next t := by
  cases tr
  case step => exact step_answers_next s
  all_goals exact ⟨_, rfl⟩ -- the host's own transactions

/-! The host's transactions, on a halted machine and on a running one (R252, R261, R262, R282). -/

theorem transact_of_halted {tr : Transaction} (h : s.fault ≠ none) (htr : tr ≠ .reset) : transact tr s = .next s := by
  have hsome : s.fault.isSome := Option.isSome_iff_ne_none.2 h
  cases tr
  case reset => exact absurd rfl htr
  case step => exact step_of_halted h
  case load | tickTimers | setKey => exact congrArg Host.Outcome.next (if_pos hsome)
  case display | readOutputs => rfl

theorem State.tickTimers_of_running (h : s.fault = none) :
    s.tickTimers = { s with dt := tickDown s.dt, st := tickDown s.st } := by
  simp [State.tickTimers, h]

theorem State.soundEnd_of_running (h : s.fault = none) : s.soundEnd = some (decide (s.st = 1)) :=
  if_neg (by simp [h])

theorem tickDown_toNat (b : Byte) : (tickDown b).toNat = b.toNat - 1 := by
  unfold tickDown
  split
  · next h => simp [h]
  · next h => bv_omega

theorem State.setKey_of_lt (h : s.fault = none) (hk : index < 16) (pressed : Bool) :
    s.setKey index pressed = { s with key := s.key.set index pressed hk } := by
  simp [State.setKey, h, hk]

theorem State.setKey_of_gt (h : s.fault = none) (hk : index > 15) (pressed : Bool) :
    s.setKey index pressed = s.withFault .hostKeyIndexOutOfRange none index := by
  simp [State.setKey, h, show ¬ index < 16 by omega]

theorem State.load_of_fits (h : s.fault = none) (hb : 0x200 + bytes.length ≤ 4096) :
    s.load bytes = s.storeBytes 0x200 bytes := by
  simp [State.load, h, show ¬ 4096 < 512 + bytes.length by omega]

theorem State.load_of_too_large (h : s.fault = none) (hb : 0x200 + bytes.length > 4096) :
    s.load bytes = s.withFault .loadTooLarge none (0x200 + bytes.length) := by
  simp [State.load, h, hb]

end Sys2Proof.Machine

/-! PROOFS: exceptions. The invariant along a run, and the cause of each fault record. -/

namespace Sys2Proof.Claims

open Sys2Proof.Machine

variable {s t : State} {i : Instr} {isWrite : Bool} {len a : Nat} {c : Fault} {r : FaultRecord}

/-! The invariant (R27, R50). -/

theorem inv_storeBytes (h : s.Inv) {base : Nat} {bs : List Byte} (hb : base + bs.length ≤ Config.memSize) :
    (s.storeBytes base bs).Inv where
  memory := State.memWf_storeBytes h.memory hb
  stack k := by simpa using h.stack k
  pc := by simpa [State.pcBounded] using h.pc
  record r hr := by simpa using h.record r (by simpa using hr)

theorem inv_of_transact {tr : Transaction} (hinv : s.Inv) (h : transact tr s = .next t) : t.Inv := by
  obtain rfl | ⟨c, o, a, rfl⟩ | ⟨-, rfl⟩ | ⟨-, hf, i, hi, he⟩ | ⟨bytes, -, hb, rfl⟩ | ⟨-, rfl⟩ |
    ⟨index, pressed, -, hk, rfl⟩ := transact_outcome h
  · exact hinv
  · exact inv_withFault hinv c o a
  · exact inv_initial s.params s.draws
  · exact inv_of_effect he hi hf hinv
  · exact inv_storeBytes hinv hb
  · exact ⟨hinv.memory, hinv.stack, hinv.pc, hinv.record⟩
  · exact ⟨hinv.memory, hinv.stack, hinv.pc, hinv.record⟩

/-- Settles O22: each transaction keeps the invariant, so every finite run does. -/
theorem everyHostRunKeepsTheMachineInvariant : Obligations.EveryHostRunKeepsTheMachineInvariant :=
  fun _ _ _ => runHost_keeps inv_of_transact

/-- A transaction leaves a running machine running, or takes a fault and does nothing else (R250). -/
theorem fault_of_transact {tr : Transaction} (hf : s.fault = none) (h : transact tr s = .next t) :
    t.fault = none ∨ ∃ c o a, t = s.withFault c o a := by
  obtain rfl | hfault | ⟨-, rfl⟩ | ⟨-, -, i, -, he⟩ | ⟨bytes, -, -, rfl⟩ | ⟨-, rfl⟩ |
    ⟨index, pressed, -, hk, rfl⟩ := transact_outcome h
  · exact .inl hf
  · exact .inr hfault
  · exact .inl rfl
  · exact .inl ((keepsAllBut_of_effect he).fault.trans hf)
  · exact .inl ((State.storeBytes_fault ..).trans hf)
  · exact .inl hf
  · exact .inl hf

/-! The range faults (R244, R245). -/

theorem isFirst_unique {P : Nat → Prop} {base len a b : Nat} (ha : IsFirst P base len a) (hb : IsFirst P base len b) :
    a = b := by
  obtain ⟨hale, -, hPa, hamin⟩ := ha
  obtain ⟨hble, -, hPb, hbmin⟩ := hb
  obtain hlt | heq | hgt := lt_trichotomy a b
  · exact absurd hPa (hbmin a hale hlt)
  · exact heq
  · exact absurd hPb (hamin b hble hgt)

theorem len_pos_of_accessOf_write (h : accessOf i = some (true, len)) : 0 < len := by
  cases i <;> simp [accessOf] at h
  case ldBVx | ldMemVx => omega

/-- An instruction with a range at I does its effect after CheckRange over that range. -/
theorem exec_of_accessOf (h : accessOf i = some (isWrite, len)) (s : State) :
    ∃ done, exec i s = checked (checkRange s.params.lowWriteFault isWrite s.idx.toNat len) (encode i) s done ∧
      done.fault = s.fault := by
  cases i <;> simp only [accessOf, reduceCtorEq, Option.some.injEq, Prod.mk.injEq] at h <;> obtain ⟨rfl, rfl⟩ := h
  case drwVxVyN => exact ⟨_, rfl, rfl⟩
  case ldBVx | ldMemVx => exact ⟨_, rfl, State.storeBytes_fault ..⟩
  case ldVxMem => exact ⟨_, rfl, State.loadRegs_fault ..⟩

theorem raises_iff_checkRange (hf : s.fault = none) (h : accessOf i = some (isWrite, len)) :
    Raises i s c a ↔ checkRange s.params.lowWriteFault isWrite s.idx.toNat len = some (c, a) := by
  obtain ⟨done, hexec, hdone⟩ := exec_of_accessOf h s
  refine ⟨fun hraise => ?_, fun hcheck => hexec.trans (checked_of_some s hcheck _ _)⟩
  obtain ⟨-, rfl⟩ | ⟨c', a', hcheck, ht⟩ := checked_cases (hexec.symm.trans hraise)
  · exact nomatch hdone.trans hf
  · obtain ⟨rfl, rfl⟩ : c = c' ∧ a = a' := by simpa using congrArg State.fault ht
    exact hcheck

/-- Settles O43: an access faults exactly as CheckRange over its range does. -/
theorem rangeFaultsNameTheFirstBadAddress : Obligations.RangeFaultsNameTheFirstBadAddress := by
  intro s i isWrite len hf h
  have hcode : (if isWrite then Fault.memWriteOutOfBounds else .memReadOutOfBounds) ≠ .protectedWrite := by
    cases isWrite <;> decide
  simp only [raises_iff_checkRange hf h]
  refine ⟨fun a => ⟨fun hcheck => ?_, fun ⟨h0, hlast, hfirst⟩ => ?_⟩,
    fun a => ⟨fun hcheck => ?_, fun ⟨hw, hlow, hlast, hidx, ha⟩ => ?_⟩⟩
  · obtain ⟨h0, ⟨hb, -, rfl⟩ | ⟨-, -, -, -, hc, -⟩⟩ := checkRange_some_cases hcheck
    · exact ⟨by omega, by omega, isFirst_above h0 hb⟩
    · exact absurd hc hcode
  · have hb : s.idx.toNat + len > 0x1000 := by omega
    rw [isFirst_unique hfirst (isFirst_above (by omega) hb)]
    exact checkRange_of_above (by omega) hb
  · obtain ⟨h0, ⟨-, hc, -⟩ | ⟨hb, hw, hlow, hidx, -, ha⟩⟩ := checkRange_some_cases hcheck
    · exact absurd hc.symm hcode
    · exact ⟨hw, hlow, by omega, hidx, ha⟩
  · subst hw ha
    have h0 := len_pos_of_accessOf_write h
    rw [hlow]
    exact checkRange_of_low h0 (by omega) hidx

/-! The cause of a fault record (R241, R251). -/

theorem fetch_eq_encode (h : Fetches s i) : s.fetch = some (encode i) := by
  obtain ⟨w, hw, hi⟩ := h
  rw [hw, encode_of_decode hi]

theorem namesItsCause_of_checkRange (hi : Fetches s i) (h : accessOf i = some (isWrite, len))
    (hc : checkRange s.params.lowWriteFault isWrite s.idx.toNat len = some (c, a)) :
    NamesItsCause .step s ⟨c, some (encode i), s.pc, a⟩ := by
  have hop := (fetch_eq_encode hi).symm
  obtain ⟨h0, ⟨hb, rfl, rfl⟩ | ⟨hb, rfl, hlow, hidx, rfl, rfl⟩⟩ := checkRange_some_cases hc
  · cases isWrite <;> exact ⟨rfl, rfl, rfl, hop, i, len, hi, h, isFirst_above h0 hb⟩
  · exact ⟨rfl, rfl, rfl, hop, hlow, i, len, hi, h, hb, isFirst_base h0 hidx⟩

theorem namesItsCause_of_exec (hf : s.fault = none) (hi : Fetches s i) (h : exec i s = .next t)
    (hr : t.fault = some r) : NamesItsCause .step s r := by
  have hop := (fetch_eq_encode hi).symm
  obtain ⟨c, a, rfl, hcause⟩ | he := exec_cases h
  · obtain rfl := Option.some.inj hr
    obtain ⟨nnn, rfl, hsp, rfl, rfl⟩ | ⟨rfl, hsp, rfl, rfl⟩ | ⟨x, rfl | rfl, hx, rfl, rfl⟩ | ⟨x, y, n, rfl, hc⟩ |
      ⟨x, rfl, hc⟩ | ⟨x, rfl, hc⟩ | ⟨x, rfl, hc⟩ := hcause
    · exact ⟨rfl, rfl, rfl, rfl, hop, hsp, nnn, hi⟩
    · exact ⟨rfl, rfl, rfl, rfl, hop, hsp, hi⟩
    · exact ⟨rfl, rfl, rfl, rfl, hop, x, hx, .inl hi⟩
    · exact ⟨rfl, rfl, rfl, rfl, hop, x, hx, .inr hi⟩
    all_goals exact namesItsCause_of_checkRange hi rfl hc -- Dxyn, Fx65, Fx33, Fx55
  · exact nomatch hr.symm.trans ((keepsAllBut_of_effect he).fault.trans hf)

theorem namesItsCause_of_step (hf : s.fault = none) (h : step s = .next t) (hr : t.fault = some r) :
    NamesItsCause .step s r := by
  obtain ⟨hw, rfl⟩ | ⟨w, hw, hd, rfl⟩ | ⟨w, i, hw, hi, he⟩ := step_cases hf h
  · obtain rfl := Option.some.inj hr
    exact ⟨rfl, rfl, rfl, rfl, rfl, fetch_none.1 hw⟩
  · obtain rfl := Option.some.inj hr
    exact ⟨rfl, rfl, rfl, rfl, hw.symm, w, hw, hd⟩
  · exact namesItsCause_of_exec hf ⟨w, hw, hi⟩ he hr

theorem namesItsCause_of_load {bytes : List Byte} (hf : s.fault = none) (hr : (s.load bytes).fault = some r) :
    NamesItsCause (.load bytes) s r := by
  by_cases hb : 0x200 + bytes.length > 4096
  · rw [State.load_of_too_large hf hb] at hr
    obtain rfl := Option.some.inj hr
    exact ⟨rfl, rfl, rfl, bytes, rfl, rfl, hb⟩
  · rw [State.load_of_fits hf (by omega), State.storeBytes_fault, hf] at hr
    exact nomatch hr

theorem namesItsCause_of_setKey {index : Nat} {pressed : Bool} (hf : s.fault = none)
    (hr : (s.setKey index pressed).fault = some r) : NamesItsCause (.setKey index pressed) s r := by
  by_cases hk : index > 15
  · rw [State.setKey_of_gt hf hk] at hr
    obtain rfl := Option.some.inj hr
    exact ⟨rfl, rfl, rfl, pressed, rfl, hk⟩
  · rw [State.setKey_of_lt hf (by omega)] at hr
    exact nomatch hr.symm.trans hf

end Sys2Proof.Claims

/-! PROOFS: exceptions. The statements about faults and the host's transactions. -/

namespace Sys2Proof.Claims

open Sys2Proof.Machine

/-- Settles O11: a step, load and set_key can raise a fault, and each record it leaves is read off its check. -/
theorem faultRecordsNameTheirCause : Obligations.FaultRecordsNameTheirCause := by
  intro tr s t r hf h hr
  cases tr
  case step => exact namesItsCause_of_step hf h hr
  all_goals obtain rfl := Host.Outcome.next.inj h
  case reset => exact nomatch hr
  case load => exact namesItsCause_of_load hf hr
  case setKey => exact namesItsCause_of_setKey hf hr
  case tickTimers =>
    rw [State.tickTimers_of_running hf] at hr
    exact nomatch hr.symm.trans hf
  case display | readOutputs => exact nomatch hr.symm.trans hf

/-- Settles O8: a step that fetches an unknown word raises the fault, and a record of the fault names such a fetch. -/
theorem unknownOpcodeIsRaisedExactlyWhenFetched : Obligations.UnknownOpcodeIsRaisedExactlyWhenFetched := by
  refine fun s hf => ⟨fun ⟨w, hw, hd⟩ => ⟨_, _, step_of_decode_none hf hw hd, rfl, rfl⟩, fun ⟨t, r, h, hr, hc⟩ => ?_⟩
  have hcause := namesItsCause_of_step hf h hr
  simp only [NamesItsCause, hc] at hcause
  obtain ⟨-, -, -, -, -, hfetch⟩ := hcause
  exact hfetch

/-- Settles O9: every transaction but reset finds the machine halted and leaves it so. -/
theorem haltedMachineIsFrozen : Obligations.HaltedMachineIsFrozen := by
  refine ⟨fun s r hr => ⟨fun tr => transact_of_halted (by simp [hr]), congrArg Response.done hr, rfl, _, rfl, rfl⟩,
    fun s t tr hs h ht => ?_⟩
  by_contra htr
  obtain rfl := Host.Outcome.next.inj ((transact_of_halted hs htr).symm.trans h)
  exact hs ht

/-- Settles O10: the state that takes a fault differs from the one before in FAULT alone. -/
theorem faultsLeaveNoPartialEffect : Obligations.FaultsLeaveNoPartialEffect := by
  intro tr s t hf h ht
  obtain hnone | ⟨c, o, a, rfl⟩ := fault_of_transact hf h
  · exact absurd hnone ht
  · rfl

/-- Settles O12: a fault is taken as a next state, so no arm answers anything else. -/
theorem everyTransactionAnswersNext : Obligations.EveryTransactionAnswersNext := transact_answers_next

/-- Settles O55: each timer ticks down as a natural subtraction, and the two timers are all it writes. -/
theorem tickDecrementsNonzeroTimers : Obligations.TickDecrementsNonzeroTimers := by
  refine fun s => ⟨fun h => transact_of_halted h nofun, fun hf => ?_⟩
  have hframe : KeepsAllBut [.delay, .sound] s { s with dt := tickDown s.dt, st := tickDown s.st } :=
    (KeepsAllBut.setDT (by simp) (tickDown s.dt)).trans (.setST (by simp) (tickDown s.st))
  exact ⟨_, congrArg Host.Outcome.next (State.tickTimers_of_running hf), tickDown_toNat _, tickDown_toNat _,
    congrArg Response.soundEnd (State.soundEnd_of_running hf), rfl, hframe⟩

/-- Settles O56: an index up to 15 names one flag, and a greater one fails the check. -/
theorem setKeyWritesOneFlag : Obligations.SetKeyWritesOneFlag := by
  refine fun s pressed => ⟨fun index h => transact_of_halted h nofun, fun k hf => ?_,
    fun index hf hk => congrArg Host.Outcome.next (State.setKey_of_gt hf hk pressed)⟩
  refine ⟨_, congrArg Host.Outcome.next (State.setKey_of_lt hf k.isLt pressed), fun j => ?_, rfl⟩
  simp [Vector.getElem_set, Fin.ext_iff, eq_comm]

end Sys2Proof.Claims

/-! PROOFS: loading. Stored bytes change memory alone, and an instruction stored at PC is fetched. -/

namespace Sys2Proof.Machine

variable {s : State}

theorem State.storeBytes_eq_with_mem (s : State) (base : Nat) (bs : List Byte) :
    s.storeBytes base bs = { s with mem := (s.storeBytes base bs).mem } := by
  induction bs generalizing s base with
  | nil => rfl
  | cons b rest ih => exact ih (s.writeByte base b) (base + 1)

theorem length_encodeBytes (i : Instr) : (encodeBytes i).length = 2 := rfl

/-- A machine whose PC is where i's two bytes were stored fetches the word of i. -/
theorem fetch_storeBytes_encodeBytes {i : Instr} {rest : List Byte} (hm : s.memWf)
    (hb : s.pc.toNat + (encodeBytes i ++ rest).length ≤ Config.memSize) :
    (s.storeBytes s.pc.toNat (encodeBytes i ++ rest)).fetch = some (encode i) :=
  calc (s.storeBytes s.pc.toNat (encodeBytes i ++ rest)).fetch
    _ = some (bigEndian (highByte (encode i)) (lowByte (encode i))) :=
      fetch_storeBytes (k := 0) hm hb (by rw [List.length_append, length_encodeBytes]; omega)
        (by rw [State.storeBytes_pc]; rfl)
    _ = some (encode i) := congrArg some (bigEndian_bytes _)

end Sys2Proof.Machine

/-! PROOFS: loading. The statements about the host's load and the first step after it (R282, R283). -/

namespace Sys2Proof.Claims

open Sys2Proof.Machine

/-- Settles O57: a fitting image is stored at 0x200, and an image that fails the length check is not. -/
theorem loadCopiesTheImage : Obligations.LoadCopiesTheImage := by
  refine fun s bytes => ⟨fun h => transact_of_halted h nofun, fun hf hm hb => ?_,
    fun hf hb => congrArg Host.Outcome.next (State.load_of_too_large hf hb)⟩
  have hread := State.readByte_storeBytes hm (base := 0x200) (bs := bytes) hb
  refine ⟨s.storeBytes 0x200 bytes, congrArg Host.Outcome.next (State.load_of_fits hf hb), fun k hk => ?_,
    fun a ha => ?_, State.storeBytes_eq_with_mem ..⟩
  · simp [hread, hk]
  · rw [hread, dif_neg (by omega)]

/-- Settles O59: the initial state has canonical memory and PC = 0x200, where load stores the bytes of i. -/
theorem bootRunsTheFirstLoadedInstruction : Obligations.BootRunsTheFirstLoadedInstruction := by
  intro s i rest hlen
  have hb : 0x200 + (encodeBytes i ++ rest).length ≤ 4096 := by
    rw [List.length_append, length_encodeBytes]
    omega
  have hload := State.load_of_fits (s := s.afterReset) rfl hb
  have hfault : (s.afterReset.storeBytes 0x200 (encodeBytes i ++ rest)).fault = none := State.storeBytes_fault ..
  have hfetch := fetch_storeBytes_encodeBytes (s := s.afterReset) (Memory.wf_nil s.params.font) hb
  exact ⟨_, congrArg Host.Outcome.next hload, State.storeBytes_pc .., hfault,
    step_of_decode_some hfault hfetch (decode_encode i)⟩

end Sys2Proof.Claims
